-- ==== Sys2Proof/Word.lean ====
section
/-! DEFINITION. The fixed-width values of the injector-LFSR core (00_scope.md R7, R11) and the four
stream endianness conventions (R12). -/

namespace Sys2Proof

/-- The 32-bit datum of a write to `CMD` (30_encoding.md R60). -/
abbrev Command := BitVec 32

/-- A register number: 32 bits, names one whole register (20_memory.md R40). -/
abbrev RegNum := BitVec 32

/-- A value of the 80-bit LFSR; register bit 79 is the document's position 0 (R7, R26). -/
abbrev LfsrWord := BitVec 80

/-- The four stream endianness conventions, by their short names (00_scope.md R12). -/
inductive Conv where
  /-- big-unit / big-bit -/
  | bb
  /-- little-unit / big-bit -/
  | lb
  /-- big-unit / little-bit -/
  | bl
  /-- little-unit / little-bit -/
  | ll
  deriving DecidableEq, Repr

end Sys2Proof
end

