-- ==== Sys2Proof/Config.lean ====
section
/-! DEFINITION. What one instance of the hardware fixes at elaboration (00_scope.md R4, R5), and the
free values: constants without a body that stand for every value the spec leaves unspecified. -/

namespace Sys2Proof

/-- The raw parameters of 00_scope.md R4; `BlockBits` is derived, not free. -/
structure Params where
  /-- `WordBits`: width of a word. -/
  wordBits : Nat
  /-- `UnitBits`: width of a unit. -/
  unitBits : Nat
  /-- `BlockWords`: words in a block. -/
  blockWords : Nat
  /-- `NMAX`: width of `P`, of a candidate and of a table entry. -/
  nmax : Nat
  /-- `RC_DEPTH`: entries of the round-constant table. -/
  rcDepth : Nat
  /-- `FIELD_TYPE`: the 2-bit indicator of the seed. -/
  fieldType : BitVec 2
  /-- `SBOX_TYPE`: the 4-bit indicator of the seed. -/
  sboxType : BitVec 4
  deriving DecidableEq, Repr

namespace Params

/-- `BlockBits = BlockWords × WordBits` (R4). -/
abbrev blockBits (p : Params) : Nat := p.blockWords * p.wordBits

/-- The constraints of 00_scope.md R4. -/
abbrev Wf (p : Params) : Prop :=
  1 ≤ p.wordBits ∧ 1 ≤ p.unitBits ∧ p.unitBits ≤ p.wordBits ∧ p.unitBits ∣ p.wordBits ∧
  1 ≤ p.blockWords ∧ p.blockBits ≤ 65535 ∧ 1 ≤ p.nmax ∧ p.nmax ≤ 4095 ∧ p.rcDepth ≤ 2 ^ 23

end Params

/-- A configuration: parameters that meet every constraint. A record that violates one is not a
configuration of this hardware and cannot be built (00_scope.md R5). -/
structure Config extends Params where
  wf : toParams.Wf
  deriving DecidableEq, Repr

namespace Config

/-- Elaboration: a parameter set that violates a constraint is refused (R5). -/
def ofParams? (p : Params) : Option Config :=
  if h : p.Wf then some ⟨p, h⟩ else none

/-- The configuration of `State.reset`. DESIGN CHOICE (log 2), unsafe: the spec fixes no width.
`FIELD_TYPE` and `SBOX_TYPE` are the spec's defaults (R4). -/
def initial : Config :=
  ⟨⟨32, 8, 2, 256, 256, 0b01#2, 0b0000#4⟩, by decide⟩

/-- FREE VALUE (log 7, log 9): the `n`-th value drawn, of width `w`. It has no body, so nothing can
be proved of it. Drawn by a host read of `LFSR`, `IDX` or `RC` while busy (20_memory.md R52). -/
opaque freeBits : (w : Nat) → (n : Nat) → BitVec w

/-- FREE VALUE (log 8): what word `i` of `SRC` holds after the `epoch`-th reset until it is written
(10_state.md R33, 70_reset_and_hazards.md R144). -/
opaque powerUpSrc : (w : Nat) → (epoch : Nat) → (i : Nat) → BitVec w

/-- FREE VALUE (log 8): what entry `i` of `RC` holds after the `epoch`-th reset until it is written
(10_state.md R33). -/
opaque powerUpRc : (w : Nat) → (epoch : Nat) → (i : Nat) → BitVec w

end Config

end Sys2Proof
end

