-- ==== Sys2Proof/Syntax.lean ====
section
/-! DEFINITION. The fourteen commands (30_encoding.md R61, R69): one constructor for each row of
opcode_table.json. `k` is the bit count, an unsigned number (R63). -/

namespace Sys2Proof

/-- A command of the core. -/
inductive Instr where
  /-- `INJW.BB k` (40_word_injector.md R81) -/
  | injwBB (k : Nat)
  /-- `INJW.LB k` (R82) -/
  | injwLB (k : Nat)
  /-- `INJW.BL k` (R83) -/
  | injwBL (k : Nat)
  /-- `INJW.LL k` (R84) -/
  | injwLL (k : Nat)
  /-- `INJB.BB k` (41_block_injector.md R91) -/
  | injbBB (k : Nat)
  /-- `INJB.LB k` (R92) -/
  | injbLB (k : Nat)
  /-- `INJB.BL k` (R93) -/
  | injbBL (k : Nat)
  /-- `INJB.LL k` (R94) -/
  | injbLL (k : Nat)
  /-- `BCLR` (40_word_injector.md R87) -/
  | bclr
  /-- `LINIT` (42_lfsr_generator.md R105) -/
  | linit
  /-- `ADVR` (R106) -/
  | advr
  /-- `ADVF` (R107) -/
  | advf
  /-- `GENC` (R108) -/
  | genc
  /-- `GENT` (R109) -/
  | gent
  deriving DecidableEq, Repr

namespace Instr

/-- The word injection of a convention (R62). -/
def injw : Conv → Nat → Instr
  | .bb, k => .injwBB k
  | .lb, k => .injwLB k
  | .bl, k => .injwBL k
  | .ll, k => .injwLL k

/-- The block injection of a convention (R62). -/
def injb : Conv → Nat → Instr
  | .bb, k => .injbBB k
  | .lb, k => .injbLB k
  | .bl, k => .injbBL k
  | .ll, k => .injbLL k

end Instr

end Sys2Proof
end

