-- ==== Sys2Proof/WellFormed.lean ====
section
/-! DEFINITION. Which commands a 32-bit word can carry: a bit count must fit the 16-bit `k` field
(30_encoding.md R60, R63). A count above `WordBits` is well formed: it is no encoding error but the
fault `K_RANGE` (R65). -/

namespace Sys2Proof

namespace Instr

/-- The bit count of a command; 0 where the operation has none (R60). -/
def count : Instr → Nat
  | .injwBB k => k
  | .injwLB k => k
  | .injwBL k => k
  | .injwLL k => k
  | .injbBB k => k
  | .injbLB k => k
  | .injbBL k => k
  | .injbLL k => k
  | .bclr => 0
  | .linit => 0
  | .advr => 0
  | .advf => 0
  | .genc => 0
  | .gent => 0

/-- A command that some 32-bit word encodes. -/
abbrev WellFormed (i : Instr) : Prop := i.count < 2 ^ 16

end Instr

end Sys2Proof
end

