-- ==== Sys2Proof/Decode.lean ====
section
/-! DEFINITION. The decoder of 30_encoding.md R64, total on every 32-bit word, rejecting by name
(R65), and after it the encoder and the match and mask of each row of R64's table. -/

namespace Sys2Proof

/-- Why a word is illegal (30_encoding.md R65); the machine records `ILLEGAL_CMD` for each. -/
inductive DecodeError where
  /-- bits 25:16 are not all 0 -/
  | zeroField
  /-- `op` is one of `0x0`, `0x4..0x7`, `0xD..0xF` -/
  | reservedOp
  /-- `conv` is not 0 on a command that has no convention -/
  | unusedConv
  /-- `k` is not 0 on a command that has no bit count -/
  | unusedCount
  deriving DecidableEq, Repr

/-- Bits 31:28, the operation code (R60). -/
def opField (c : Command) : BitVec 4 := c.extractLsb' 28 4

/-- Bits 27:26, the convention (R60). -/
def convField (c : Command) : BitVec 2 := c.extractLsb' 26 2

/-- Bits 25:16, which must be 0 (R60). -/
def zeroField (c : Command) : BitVec 10 := c.extractLsb' 16 10

/-- Bits 15:0, the bit count, unsigned and unscaled (R60, R63). -/
def kField (c : Command) : BitVec 16 := c.extractLsb' 0 16

/-- The 2-bit code of a convention (00_scope.md R12). -/
def convCode : Conv → BitVec 2
  | .bb => 0b00#2
  | .lb => 0b01#2
  | .bl => 0b10#2
  | .ll => 0b11#2

/-- The convention of a code: bit 0 is the unit order, bit 1 the bit order (R12, R62). All four
codes are legal. -/
def convOfCode (b : BitVec 2) : Conv :=
  if b = 0b00#2 then .bb
  else if b = 0b01#2 then .lb
  else if b = 0b10#2 then .bl
  else .ll

/-- A command that uses neither `conv` nor `k`: both must be 0 (R60, R65). -/
def decodePlain (i : Instr) (c : Command) : Except DecodeError Instr :=
  if convField c ≠ 0 then .error .unusedConv
  else if kField c ≠ 0 then .error .unusedCount
  else .ok i

/-- Decode (30_encoding.md R64, R65). -/
def decode (c : Command) : Except DecodeError Instr :=
  if zeroField c ≠ 0 then .error .zeroField
  else if opField c = 0x1#4 then .ok (.injw (convOfCode (convField c)) (kField c).toNat)
  else if opField c = 0x2#4 then .ok (.injb (convOfCode (convField c)) (kField c).toNat)
  else if opField c = 0x3#4 then decodePlain .bclr c
  else if opField c = 0x8#4 then decodePlain .linit c
  else if opField c = 0x9#4 then decodePlain .advr c
  else if opField c = 0xA#4 then decodePlain .advf c
  else if opField c = 0xB#4 then decodePlain .genc c
  else if opField c = 0xC#4 then decodePlain .gent c
  else .error .reservedOp

/-- The format of R60: `op` in bits 31:28, `conv` in 27:26, 0 in 25:16, `k` in 15:0. -/
def commandWord (op : BitVec 4) (conv : BitVec 2) (k : Nat) : Command :=
  op.setWidth 32 <<< 28 ||| conv.setWidth 32 <<< 26 ||| (BitVec.ofNat 16 k).setWidth 32

/-- The word of a command (R60 to R62, R67). -/
def encode : Instr → Command
  | .injwBB k => commandWord 0x1 (convCode .bb) k
  | .injwLB k => commandWord 0x1 (convCode .lb) k
  | .injwBL k => commandWord 0x1 (convCode .bl) k
  | .injwLL k => commandWord 0x1 (convCode .ll) k
  | .injbBB k => commandWord 0x2 (convCode .bb) k
  | .injbLB k => commandWord 0x2 (convCode .lb) k
  | .injbBL k => commandWord 0x2 (convCode .bl) k
  | .injbLL k => commandWord 0x2 (convCode .ll) k
  | .bclr => commandWord 0x3 0 0
  | .linit => commandWord 0x8 0 0
  | .advr => commandWord 0x9 0 0
  | .advf => commandWord 0xA 0 0
  | .genc => commandWord 0xB 0 0
  | .gent => commandWord 0xC 0 0

/-- The "match" column of R64's table. -/
def tableMatch : Instr → Command
  | .injwBB _ => 0x10000000
  | .injwLB _ => 0x14000000
  | .injwBL _ => 0x18000000
  | .injwLL _ => 0x1C000000
  | .injbBB _ => 0x20000000
  | .injbLB _ => 0x24000000
  | .injbBL _ => 0x28000000
  | .injbLL _ => 0x2C000000
  | .bclr => 0x30000000
  | .linit => 0x80000000
  | .advr => 0x90000000
  | .advf => 0xA0000000
  | .genc => 0xB0000000
  | .gent => 0xC0000000

/-- The "mask" column of R64's table. -/
def tableMask : Instr → Command
  | .injwBB _ => 0xFFFF0000
  | .injwLB _ => 0xFFFF0000
  | .injwBL _ => 0xFFFF0000
  | .injwLL _ => 0xFFFF0000
  | .injbBB _ => 0xFFFF0000
  | .injbLB _ => 0xFFFF0000
  | .injbBL _ => 0xFFFF0000
  | .injbLL _ => 0xFFFF0000
  | .bclr => 0xFFFFFFFF
  | .linit => 0xFFFFFFFF
  | .advr => 0xFFFFFFFF
  | .advf => 0xFFFFFFFF
  | .genc => 0xFFFFFFFF
  | .gent => 0xFFFFFFFF

/-- The command the decoder reads from an instruction of the opcode table whose bits are `w`. A
command is the datum of one `CMD` write, so there are no bytes to lay out (20_memory.md R45, R54). -/
def decodeTableWord (nbits w : Nat) : Option Instr :=
  match decode (BitVec.ofNat 32 (w % 2 ^ nbits)) with
  | .ok i => some i
  | .error _ => none

end Sys2Proof
end

