-- ==== Sys2Proof/Machine/State.lean ====
section
/-! DEFINITION. The machine's state as plain data (10_state.md), the reasons a step can stop, and the
state after reset. -/

namespace Sys2Proof.Machine

/-- `STATUS`, 32 bits (10_state.md R29); its fields are in Machine/Flags.lean. -/
abbrev Status := BitVec 32

/-- One of the two memory arrays `SRC` and `RC` (10_state.md R22, R27): the words written since
reset, each once, indices strictly rising. An index that is not listed was never written. -/
abbrev Memory (w : Nat) := List (Nat × BitVec w)

/-- The generator commands: what `GOP` can hold (10_state.md R31). -/
inductive GenOp where
  | linit | advr | advf | genc | gent
  deriving DecidableEq, Repr

/-- The fault causes (60_exceptions.md R121). -/
inductive Cause where
  /-- a word written to `CMD` is none of the fourteen commands (R122) -/
  | illegalCmd
  /-- `INJW` with `k > WordBits` (R123) -/
  | kRange
  /-- a generator command or a parameter write while `GBUSY = 1` (R124) -/
  | genBusy
  /-- `GENC` or `GENT` with parameters unusable at issue (R125) -/
  | genParam
  /-- an access to a register that does not exist or does not allow it (R126) -/
  | badAccess
  deriving DecidableEq, Repr

/-- A host action (00_scope.md R6, R10): a whole-register read or write. Writing `CMD` issues a
command. A datum is a number of any size; the register keeps what fits (20_memory.md R42). -/
inductive HostAction where
  | read (rn : RegNum)
  | write (rn : RegNum) (v : Nat)
  deriving DecidableEq, Repr

/-- What happens next: a host action, a turn of the generator unit (its completion step, where
enabled), or the reset event (00_scope.md R6, 70_reset_and_hazards.md R140). DESIGN CHOICE, log 3. -/
inductive Event where
  | host (a : HostAction)
  | generatorTurn
  | reset
  deriving DecidableEq, Repr

/-- The registers and memories of the hardware (10_state.md R20 to R31), under configuration `c`, and
the two counters the model draws free values by. -/
structure Regs (c : Config) where
  /-- the destination block (R20) -/
  B : Vector (BitVec c.wordBits) c.blockWords
  /-- the cursor (R21) -/
  SEEN : BitVec 16
  /-- the source block (R22), a memory array that reset does not clear -/
  SRC : Memory c.wordBits
  /-- the word operand of `INJW` (R23) -/
  WDATA : BitVec c.wordBits
  /-- `word_bits` (R24) -/
  N : BitVec 12
  /-- `state_words` (R24) -/
  T : BitVec 12
  /-- `full_rounds` (R24) -/
  RF : BitVec 10
  /-- `part_rounds` (R24) -/
  RP : BitVec 10
  /-- the modulus (R25) -/
  P : BitVec c.nmax
  /-- the 80-bit LFSR (R26) -/
  LFSR : LfsrWord
  /-- the round-constant table (R27), a memory array that reset does not clear -/
  RC : Memory c.nmax
  /-- the next table entry `GENC` writes (R28) -/
  IDX : BitVec 23
  /-- the status register (R29) -/
  STATUS : Status
  /-- the accepted generator command not yet completed (R31) -/
  GOP : Option GenOp
  /-- the model's own: how many free values were drawn (log 7, log 9) -/
  draws : Nat
  /-- the model's own: how many resets there were, which names the power-up content of the words of
  `SRC` and `RC` never written since (log 8) -/
  epoch : Nat
  deriving DecidableEq, Repr

/-- The machine: a configuration (00_scope.md R4; no step changes it), the hardware's registers, the
events to come, and the value the last `HostRead` returned (20_memory.md R41). -/
structure State where
  /-- the configuration record, log 1 -/
  cfg : Config
  /-- everything the spec gives the hardware -/
  regs : Regs cfg
  /-- the model's own: host actions, generator turns and resets to come, in order (log 3) -/
  inputs : List Event
  /-- the model's own: what the last `HostRead` returned (log 6) -/
  rdata : Nat
  deriving DecidableEq, Repr

/-- Why a step stops with a fault: it never does. A fault of this hardware is a sticky record and the
machine goes on (60_exceptions.md R120), so it is a next state. -/
inductive Fault where
  deriving DecidableEq, Repr

/-- Why a step has no meaning. -/
inductive Refusal where
  /-- raised by `exec` for a command that has no meaning yet (safe); none is left -/
  | notModelled (mnemonic : String)
  deriving DecidableEq, Repr

/-- What a step answers. -/
abbrev Outcome := Host.Outcome State Fault Refusal

/-- Every register right after the `epoch`-th reset (10_state.md R33, 70_reset_and_hazards.md R140).
`SRC` and `RC` are unspecified: nothing in them is written. -/
def Regs.reset (c : Config) (draws epoch : Nat) : Regs c where
  B := Vector.replicate c.blockWords 0
  SEEN := 0
  SRC := []
  WDATA := 0
  N := 0
  T := 0
  RF := 0
  RP := 0
  P := 0
  LFSR := 0
  RC := []
  IDX := 0
  STATUS := 0
  GOP := none
  draws := draws
  epoch := epoch

/-- The machine right after reset, no host action to come. The configuration is a DESIGN CHOICE
(log 2); the statements hold for every configuration. -/
def State.reset : State where
  cfg := Config.initial
  regs := Regs.reset Config.initial 0 0
  inputs := []
  rdata := 0

end Sys2Proof.Machine
end

