-- ==== Sys2Proof/Machine/Bits.lean ====
section
/-! DEFINITION. Bit helpers: single-bit writes and the mask helpers of 00_scope.md R9. -/

namespace Sys2Proof.Machine

/-- `v[i] <- b` (00_scope.md R10); nothing where `v` has no bit `i`. -/
def setBit {w : Nat} (v : BitVec w) (i : Nat) (b : Bool) : BitVec w :=
  if b then v ||| BitVec.twoPow w i else v &&& ~~~ BitVec.twoPow w i

/-- `low_bits(width, n) = 2^n - 1` (00_scope.md R9). -/
def lowBits (width n : Nat) : BitVec width := BitVec.ofNat width (2 ^ n - 1)

/-- `high_bits(width, n) = (2^n - 1) << (width - n)` (00_scope.md R9). -/
def highBits (width n : Nat) : BitVec width := BitVec.ofNat width ((2 ^ n - 1) * 2 ^ (width - n))

end Sys2Proof.Machine
end

