-- ==== Sys2Proof/Machine/Flags.lean ====
section
/-! DEFINITION. The fields of `STATUS` (10_state.md R29) and the cause codes (60_exceptions.md R121).
Injections write no flag; there are no arithmetic flags. -/

namespace Sys2Proof.Machine

/-- Bit 0: a generator command is accepted and not completed. -/
def Status.gbusy (st : Status) : Bool := st.getLsbD 0

/-- Bit 1: the table is complete. -/
def Status.rcv (st : Status) : Bool := st.getLsbD 1

/-- Bit 2: some fault was recorded since reset. -/
def Status.fault (st : Status) : Bool := st.getLsbD 2

/-- Bits 7:4: the code of the first fault since reset. -/
def Status.cause (st : Status) : BitVec 4 := st.extractLsb' 4 4

/-- `GBUSY <- b`. -/
def Status.setGbusy (st : Status) (b : Bool) : Status := setBit st 0 b

/-- `RCV <- b`. -/
def Status.setRcv (st : Status) (b : Bool) : Status := setBit st 1 b

/-- `FAULT <- b`. -/
def Status.setFault (st : Status) (b : Bool) : Status := setBit st 2 b

/-- `CAUSE <- code`. -/
def Status.setCause (st : Status) (code : BitVec 4) : Status :=
  (st &&& ~~~ 0xF0#32) ||| (code.setWidth 32 <<< 4)

/-- The code of a cause (60_exceptions.md R121). -/
def causeCode : Cause → BitVec 4
  | .illegalCmd => 1
  | .kRange => 2
  | .genBusy => 3
  | .genParam => 4
  | .badAccess => 5

/-- What recording a fault does to `STATUS` (60_exceptions.md R120): the first cause stays. -/
def Status.recordFault (st : Status) (cause : Cause) : Status :=
  (if st.fault then st else st.setCause (causeCode cause)).setFault true

end Sys2Proof.Machine
end

