-- ==== Sys2Proof/Machine/Operands.lean ====
section
/-! DEFINITION. The register-number space (20_memory.md R40): which register a number names, how wide
it is, and which accesses the host has. -/

namespace Sys2Proof.Machine

/-- A register the host can name. -/
inductive RegName where
  | cmd | status | seen | wdata | n | t | rf | rp | p | lfsr | idx
  | b (i : Nat)
  | src (i : Nat)
  | rc (i : Nat)
  deriving DecidableEq, Repr

/-- The map of 20_memory.md R40; `none` is an unmapped number. -/
def regName (c : Config) (rn : RegNum) : Option RegName :=
  let a := rn.toNat
  if a = 0x0 then some .cmd
  else if a = 0x1 then some .status
  else if a = 0x2 then some .seen
  else if a = 0x3 then some .wdata
  else if a = 0x4 then some .n
  else if a = 0x5 then some .t
  else if a = 0x6 then some .rf
  else if a = 0x7 then some .rp
  else if a = 0x8 then some .p
  else if a = 0x9 then some .lfsr
  else if a = 0xA then some .idx
  else if 0x10000 ≤ a ∧ a < 0x10000 + c.blockWords then some (.b (a - 0x10000))
  else if 0x20000 ≤ a ∧ a < 0x20000 + c.blockWords then some (.src (a - 0x20000))
  else if 0x1000000 ≤ a ∧ a < 0x1000000 + c.rcDepth then some (.rc (a - 0x1000000))
  else none

/-- The width in bits (20_memory.md R40). -/
def regWidth (c : Config) : RegName → Nat
  | .cmd => 32
  | .status => 32
  | .seen => 16
  | .wdata => c.wordBits
  | .n => 12
  | .t => 12
  | .rf => 10
  | .rp => 10
  | .p => c.nmax
  | .lfsr => 80
  | .idx => 23
  | .b _ => c.wordBits
  | .src _ => c.wordBits
  | .rc _ => c.nmax

/-- The registers the generator writes: a read while `GBUSY = 1` is unspecified (20_memory.md R52). -/
def unspecifiedWhileBusy : RegName → Bool
  | .lfsr => true
  | .idx => true
  | .rc _ => true
  | .cmd => false
  | .status => false
  | .seen => false
  | .wdata => false
  | .n => false
  | .t => false
  | .rf => false
  | .rp => false
  | .p => false
  | .b _ => false
  | .src _ => false

end Sys2Proof.Machine
end

