-- ==== Sys2Proof/Machine/Stream.lean ====
section
/-! DEFINITION. The stream bit order: which register bit holds which stream offset under each of the
four conventions (20_memory.md R46 to R49). -/

namespace Sys2Proof.Machine

/-- `phys_c(q)` (20_memory.md R47) for a word of `W` bits in units of `U` bits. -/
def phys (W U : Nat) (cv : Conv) (q : Nat) : Nat :=
  match cv with
  | .bb => W - 1 - q
  | .lb => q / U * U + (U - 1 - q % U)
  | .bl => W - (q / U + 1) * U + q % U
  | .ll => q

/-- `sbit_c(v, j) = v[phys_c(j)]`, stream bit `j` of a word (20_memory.md R48). -/
def sbit (c : Config) (cv : Conv) (v : BitVec c.wordBits) (j : Nat) : Bool :=
  v.getLsbD (phys c.wordBits c.unitBits cv j)

/-- Word `i` of a block; 0 outside the block, where no rule reads. -/
def blockWord {c : Config} (X : Vector (BitVec c.wordBits) c.blockWords) (i : Nat) : BitVec c.wordBits :=
  X[i]?.getD 0

/-- `stream_bit_c(X, p)` (20_memory.md R46, R48): offset `p` lies in word `p div WordBits`. -/
def streamBit (c : Config) (cv : Conv) (X : Vector (BitVec c.wordBits) c.blockWords) (p : Nat) : Bool :=
  sbit c cv (blockWord X (p / c.wordBits)) (p % c.wordBits)

end Sys2Proof.Machine
end

