-- ==== Sys2Proof/Machine/Ops.lean ====
section
/-! DEFINITION. The shared operations over the registers and memories: memory cells, recording a
fault, injecting a word, injecting a block. -/

namespace Sys2Proof.Machine

/-! ## The memory arrays `SRC` and `RC` -/

/-- Word `i`, if it was written since reset. -/
def Memory.read {w : Nat} : Memory w → Nat → Option (BitVec w)
  | [], _ => none
  | (j, v) :: m, i => if j = i then some v else Memory.read m i

/-- Write word `i`, keeping the indices strictly rising. -/
def Memory.write {w : Nat} : Memory w → Nat → BitVec w → Memory w
  | [], i, v => [(i, v)]
  | (j, u) :: m, i, v =>
    if i < j then (i, v) :: (j, u) :: m
    else if i = j then (i, v) :: m
    else (j, u) :: Memory.write m i v

/-- The canonical form: indices strictly rising (log 17). -/
def Memory.wf {w : Nat} : Memory w → Bool
  | [] => true
  | [_] => true
  | (j, _) :: (k, u) :: m => decide (j < k) && Memory.wf ((k, u) :: m)

/-- Every written index is below `n`. -/
def Memory.below {w : Nat} (m : Memory w) (n : Nat) : Bool := m.all fun e => decide (e.1 < n)

/-- `SRC[i]`: a word never written since reset is unspecified but fixed, a free value
(10_state.md R33, 70_reset_and_hazards.md R144; log 8). -/
def Regs.srcWord {c : Config} (r : Regs c) (i : Nat) : BitVec c.wordBits :=
  (Memory.read r.SRC i).getD (Config.powerUpSrc c.wordBits r.epoch i)

/-- `RC[i]`: an entry never written since reset is unspecified but fixed, a free value
(10_state.md R33; log 8). -/
def Regs.rcEntry {c : Config} (r : Regs c) (i : Nat) : BitVec c.nmax :=
  (Memory.read r.RC i).getD (Config.powerUpRc c.nmax r.epoch i)

/-! ## Taking a fault -/

/-- `raise Fault(cause)` (60_exceptions.md R120): the one way a fault is taken. Nothing is saved and
control goes nowhere; only `STATUS` changes. There is no return: only reset clears the record (R130,
70_reset_and_hazards.md R140). -/
def raiseFault {c : Config} (cause : Cause) (r : Regs c) : Regs c :=
  { r with STATUS := r.STATUS.recordFault cause }

/-- The state with other register contents; the configuration, the inputs and the host's last datum
stay. -/
def State.setRegs (s : State) (r : Regs s.cfg) : State := { s with regs := r }

/-! ## Injecting a word -/

/-- The first loop of 40_word_injector.md R80: a word that keeps the first `o` stream bits of `old`
and is 0 elsewhere. -/
def keepStream (c : Config) (cv : Conv) (old : BitVec c.wordBits) (o : Nat) : BitVec c.wordBits :=
  (List.range o).foldl
    (fun a q => setBit a (phys c.wordBits c.unitBits cv q) (sbit c cv old q)) 0

/-- The second loop of R80, for the word the cursor is in: stream bits `j < k` of `w` go to in-word
offsets `o + j`, as far as those lie in the word. -/
def placeHere (c : Config) (cv : Conv) (a w : BitVec c.wordBits) (o k : Nat) : BitVec c.wordBits :=
  (List.range k).foldl
    (fun a j =>
      if o + j < c.wordBits then setBit a (phys c.wordBits c.unitBits cv (o + j)) (sbit c cv w j)
      else a) a

/-- The second loop of R80, for the next word: what does not fit spills to offsets
`o + j - WordBits` of a word that is 0 elsewhere. -/
def placeNext (c : Config) (cv : Conv) (w : BitVec c.wordBits) (o k : Nat) : BitVec c.wordBits :=
  (List.range k).foldl
    (fun b j =>
      if o + j < c.wordBits then b
      else setBit b (phys c.wordBits c.unitBits cv (o + j - c.wordBits)) (sbit c cv w j)) 0

/-- `inject_word_c(w, k)` (40_word_injector.md R80). -/
def injectWord {c : Config} (cv : Conv) (w : BitVec c.wordBits) (k : Nat) (r : Regs c) : Regs c :=
  let seen := r.SEEN.toNat
  if seen + k > c.blockBits then r
  else if seen = c.blockBits then r
  else
    let i := seen / c.wordBits
    let o := seen % c.wordBits
    let a := placeHere c cv (keepStream c cv (blockWord r.B i) o) w o k
    let B' := r.B.setIfInBounds i a
    let B'' := if o + k > c.wordBits then B'.setIfInBounds (i + 1) (placeNext c cv w o k) else B'
    { r with B := B'', SEEN := BitVec.ofNat 16 (seen + k) }

/-- What an `INJW.<c> k` does (R81 to R84): the range check comes before the saturation guard
(60_exceptions.md R123). -/
def injwCommand {c : Config} (cv : Conv) (k : Nat) (r : Regs c) : Regs c :=
  if k > c.wordBits then raiseFault .kRange r else injectWord cv r.WDATA k r

/-! ## Injecting a block -/

/-- The whole-word loop of 41_block_injector.md R90, one word after another, ascending index. -/
def injectWholeWords {c : Config} (cv : Conv) (n : Nat) (r : Regs c) : Regs c :=
  (List.range n).foldl (fun r j => injectWord cv (r.srcWord j) c.wordBits r) r

/-- `inject_block_c(k)` (41_block_injector.md R90). -/
def injectBlock {c : Config} (cv : Conv) (k : Nat) (r : Regs c) : Regs c :=
  if k + r.SEEN.toNat > c.blockBits then r
  else
    let r' := injectWholeWords cv (k / c.wordBits) r
    if k % c.wordBits ≠ 0 then
      injectWord cv (r'.srcWord (k / c.wordBits)) (k % c.wordBits) r'
    else r'

end Sys2Proof.Machine
end

