-- ==== Sys2Proof/Machine/BlockInjector.lean ====
section
/-! DEFINITION. The block injector's commands (41_block_injector.md R91 to R94). They raise no fault. -/

namespace Sys2Proof.Machine

/-- `INJB.BB k` (R91). -/
def execInjbBB (k : Nat) (s : State) : Outcome := .next (s.setRegs (injectBlock .bb k s.regs))

/-- `INJB.LB k` (R92). -/
def execInjbLB (k : Nat) (s : State) : Outcome := .next (s.setRegs (injectBlock .lb k s.regs))

/-- `INJB.BL k` (R93). -/
def execInjbBL (k : Nat) (s : State) : Outcome := .next (s.setRegs (injectBlock .bl k s.regs))

/-- `INJB.LL k` (R94). -/
def execInjbLL (k : Nat) (s : State) : Outcome := .next (s.setRegs (injectBlock .ll k s.regs))

end Sys2Proof.Machine
end

