-- ==== Sys2Proof/Machine/Lfsr.lean ====
section
/-! DEFINITION. The pure functions of the generator (42_lfsr_generator.md R100 to R103). `none` is
"undefined": a loop that never ends. -/

namespace Sys2Proof.Machine

/-- `lfsr_seed(n, t, rf, rp)` (R100): `FIELD_TYPE` in bits 79:78, `SBOX_TYPE` in 77:74, `n` in 73:62,
`t` in 61:50, `rf` in 49:40, `rp` in 39:30, thirty 1 bits below. -/
def lfsrSeed (c : Config) (n t : BitVec 12) (rf rp : BitVec 10) : LfsrWord :=
  c.fieldType.setWidth 80 <<< 78 ||| c.sboxType.setWidth 80 <<< 74 ||| n.setWidth 80 <<< 62 |||
  t.setWidth 80 <<< 50 ||| rf.setWidth 80 <<< 40 ||| rp.setWidth 80 <<< 30 |||
  (BitVec.allOnes 30).setWidth 80

/-- The new bit of a raw advance (R101): taps at document positions 0, 13, 23, 38, 51, 62. -/
def feedbackBit (S : LfsrWord) : Bool :=
  S.getLsbD 79 ^^ S.getLsbD 66 ^^ S.getLsbD 56 ^^ S.getLsbD 41 ^^ S.getLsbD 28 ^^ S.getLsbD 17

/-- `advance_raw(S)` (R101): shift left by one, the new bit enters at bit 0. -/
def advanceRaw (S : LfsrWord) : LfsrWord :=
  (S <<< 1) ||| (BitVec.ofBool (feedbackBit S)).setWidth 80

/-- `advance_raw^n` (R105, R109). -/
def advanceRawTimes : Nat → LfsrWord → LfsrWord
  | 0, S => S
  | n + 1, S => advanceRawTimes n (advanceRaw S)

/-- The loop of `advance_filtered` (R102), at most `fuel` checks: advance until bit 79 is 1, then
advance once more. -/
def filterLoop : (fuel : Nat) → LfsrWord → Option LfsrWord
  | 0, _ => none
  | fuel + 1, S =>
    if (advanceRaw S).getLsbD 79 then some (advanceRaw (advanceRaw S))
    else filterLoop fuel (advanceRaw S)

/-- `advance_filtered(S)` (R102). 80 checks are the loop's whole range: it succeeds within them for
every `S ≠ 0` and never for 0 (R102; log 11). -/
def advanceFiltered (S : LfsrWord) : Option LfsrWord := filterLoop 80 S

/-- One candidate (R103): `n` filtered advances, bit 79 after each appended to `acc`, the first bit
read being the most significant. -/
def candidateFrom : (n : Nat) → (acc : Nat) → LfsrWord → Option (LfsrWord × Nat)
  | 0, acc, S => some (S, acc)
  | n + 1, acc, S =>
    match advanceFiltered S with
    | none => none
    | some S' => candidateFrom n (2 * acc + (S'.getLsbD 79).toNat) S'

/-- The rejection loop of `next_constant` (R103), at most `fuel` candidates: the first one below `p`.
A rejected candidate is not rewound. -/
def rejectionLoop : (fuel : Nat) → LfsrWord → (n p : Nat) → Option (LfsrWord × Nat)
  | 0, _, _, _ => none
  | fuel + 1, S, n, p =>
    match candidateFrom n 0 S with
    | none => none
    | some (S', k) => if k < p then some (S', k) else rejectionLoop fuel S' n p

/-- `next_constant(S, n, p)` (R103). No cap exists (R128): `2^80` candidates pass through every
register value there is, so a loop that has not ended by then never ends (DEDUCED, log 10). -/
def nextConstant (S : LfsrWord) (n p : Nat) : Option (LfsrWord × Nat) :=
  rejectionLoop (2 ^ 80) S n p

end Sys2Proof.Machine
end

