-- ==== Sys2Proof/Machine/Generator.lean ====
section
/-! DEFINITION. The generator unit (42_lfsr_generator.md R104 to R109): issuing a command in the
host's `CMD` write, the effect of each command, and the completion step that applies it. -/

namespace Sys2Proof.Machine

/-! ## Issue -/

/-- The parameter check at issue (R104, 60_exceptions.md R125). -/
def paramsUsable {c : Config} (g : GenOp) (r : Regs c) : Bool :=
  match g with
  | .genc =>
    decide (1 ≤ r.N.toNat ∧ r.N.toNat ≤ c.nmax ∧ r.P ≠ 0 ∧ r.IDX.toNat < c.rcDepth)
  | .gent =>
    decide (1 ≤ r.N.toNat ∧ r.N.toNat ≤ c.nmax ∧ r.P ≠ 0 ∧
      (r.RF.toNat + r.RP.toNat) * r.T.toNat ≤ c.rcDepth)
  | .linit => true
  | .advr => true
  | .advf => true

/-- The commands whose issue clears `RCV` (R104, 10_state.md R29). -/
def clearsRcv : GenOp → Bool
  | .linit => true
  | .genc => true
  | .gent => true
  | .advr => false
  | .advf => false

/-- `issue(g)` (R104): busy before parameters (60_exceptions.md R130). -/
def issue {c : Config} (g : GenOp) (r : Regs c) : Regs c :=
  if r.STATUS.gbusy then raiseFault .genBusy r
  else if paramsUsable g r = false then raiseFault .genParam r
  else
    let busy := r.STATUS.setGbusy true
    { r with STATUS := if clearsRcv g then busy.setRcv false else busy, GOP := some g }

/-! ## Effects -/

/-- The seeded and idled register (R105, R109): 160 raw advances. -/
def seeded {c : Config} (r : Regs c) : LfsrWord :=
  advanceRawTimes 160 (lfsrSeed c r.N r.T r.RF r.RP)

/-- The number of constants of a table, `(RF + RP) × T` (10_state.md R27). -/
def tableSize {c : Config} (r : Regs c) : Nat := (r.RF.toNat + r.RP.toNat) * r.T.toNat

/-- `LINIT` (R105). -/
def linitEffect {c : Config} (r : Regs c) : Option (Regs c) :=
  some { r with LFSR := seeded r, IDX := 0 }

/-- `ADVR` (R106). -/
def advrEffect {c : Config} (r : Regs c) : Option (Regs c) :=
  some { r with LFSR := advanceRaw r.LFSR }

/-- `ADVF` (R107). -/
def advfEffect {c : Config} (r : Regs c) : Option (Regs c) :=
  match advanceFiltered r.LFSR with
  | none => none
  | some S => some { r with LFSR := S }

/-- `IDX <- IDX + 1`. A sum that does not fit 23 bits (possible only with `RC_DEPTH = 2^23`) is a
value the spec does not state: a free value (10_state.md R28, R32; log 9). -/
def stepIdx {c : Config} (r : Regs c) : Regs c :=
  if r.IDX.toNat + 1 < 2 ^ 23 then { r with IDX := r.IDX + 1 }
  else { r with IDX := Config.freeBits 23 r.draws, draws := r.draws + 1 }

/-- `GENC` (R108). -/
def gencEffect {c : Config} (r : Regs c) : Option (Regs c) :=
  match nextConstant r.LFSR r.N.toNat r.P.toNat with
  | none => none
  | some (S, k) =>
    some (stepIdx
      { r with LFSR := S, RC := Memory.write r.RC r.IDX.toNat (BitVec.ofNat c.nmax k) })

/-- The loop of `GENT` (R109): `count` constants into entries `idx`, `idx + 1`, …, never re-seeded. -/
def tableLoop {w : Nat} :
    (count idx : Nat) → LfsrWord → (n p : Nat) → Memory w → Option (LfsrWord × Memory w)
  | 0, _, S, _, _, rc => some (S, rc)
  | count + 1, idx, S, n, p, rc =>
    match nextConstant S n p with
    | none => none
    | some (S', k) => tableLoop count (idx + 1) S' n p (Memory.write rc idx (BitVec.ofNat w k))

/-- `GENT` (R109). -/
def gentEffect {c : Config} (r : Regs c) : Option (Regs c) :=
  match tableLoop (tableSize r) 0 (seeded r) r.N.toNat r.P.toNat r.RC with
  | none => none
  | some (S, rc) =>
    some { r with LFSR := S, RC := rc, IDX := BitVec.ofNat 23 (tableSize r),
                  STATUS := r.STATUS.setRcv true }

/-- `effect(g)` (R104); `none` where it is undefined. -/
def effect {c : Config} (g : GenOp) (r : Regs c) : Option (Regs c) :=
  match g with
  | .linit => linitEffect r
  | .advr => advrEffect r
  | .advf => advfEffect r
  | .genc => gencEffect r
  | .gent => gentEffect r

/-! ## Completion -/

/-- The completion step of the generator agent (R104): where it is enabled, the whole effect is
applied and `GBUSY` cleared; where it is not, nothing happens (a command that never completes leaves
`GBUSY = 1`, 70_reset_and_hazards.md R147, R148). -/
def complete {c : Config} (r : Regs c) : Regs c :=
  match r.STATUS.gbusy, r.GOP with
  | true, some g =>
    match effect g r with
    | none => r
    | some r' => { r' with STATUS := r'.STATUS.setGbusy false, GOP := none }
  | true, none => r
  | false, some _ => r
  | false, none => r

/-! ## The five commands -/

/-- `LINIT` (R105): issue. -/
def execLinit (s : State) : Outcome := .next (s.setRegs (issue .linit s.regs))

/-- `ADVR` (R106): issue. -/
def execAdvr (s : State) : Outcome := .next (s.setRegs (issue .advr s.regs))

/-- `ADVF` (R107): issue. -/
def execAdvf (s : State) : Outcome := .next (s.setRegs (issue .advf s.regs))

/-- `GENC` (R108): issue. -/
def execGenc (s : State) : Outcome := .next (s.setRegs (issue .genc s.regs))

/-- `GENT` (R109): issue. -/
def execGent (s : State) : Outcome := .next (s.setRegs (issue .gent s.regs))

end Sys2Proof.Machine
end

