-- ==== Sys2Proof/Machine/WordInjector.lean ====
section
/-! DEFINITION. The word injector's commands and the block clear (40_word_injector.md R81 to R84,
R87). -/

namespace Sys2Proof.Machine

/-- `INJW.BB k` (R81). -/
def execInjwBB (k : Nat) (s : State) : Outcome := .next (s.setRegs (injwCommand .bb k s.regs))

/-- `INJW.LB k` (R82). -/
def execInjwLB (k : Nat) (s : State) : Outcome := .next (s.setRegs (injwCommand .lb k s.regs))

/-- `INJW.BL k` (R83). -/
def execInjwBL (k : Nat) (s : State) : Outcome := .next (s.setRegs (injwCommand .bl k s.regs))

/-- `INJW.LL k` (R84). -/
def execInjwLL (k : Nat) (s : State) : Outcome := .next (s.setRegs (injwCommand .ll k s.regs))

/-- `BCLR` (R87): every word of `B` and the cursor to 0. -/
def execBclr (s : State) : Outcome :=
  .next (s.setRegs { s.regs with B := Vector.replicate s.cfg.blockWords 0, SEEN := 0 })

end Sys2Proof.Machine
end

