-- ==== Sys2Proof/Machine/Dispatch.lean ====
section
/-! DEFINITION. One arm for each command (30_encoding.md R61): a direct call of its meaning. -/

namespace Sys2Proof.Machine

def exec (i : Instr) (s : State) : Host.Outcome State Fault Refusal :=
  match i with
  | .injwBB k => Sys2Proof.Machine.execInjwBB k s
  | .injwLB k => Sys2Proof.Machine.execInjwLB k s
  | .injwBL k => Sys2Proof.Machine.execInjwBL k s
  | .injwLL k => Sys2Proof.Machine.execInjwLL k s
  | .injbBB k => Sys2Proof.Machine.execInjbBB k s
  | .injbLB k => Sys2Proof.Machine.execInjbLB k s
  | .injbBL k => Sys2Proof.Machine.execInjbBL k s
  | .injbLL k => Sys2Proof.Machine.execInjbLL k s
  | .bclr => Sys2Proof.Machine.execBclr s
  | .linit => Sys2Proof.Machine.execLinit s
  | .advr => Sys2Proof.Machine.execAdvr s
  | .advf => Sys2Proof.Machine.execAdvf s
  | .genc => Sys2Proof.Machine.execGenc s
  | .gent => Sys2Proof.Machine.execGent s

end Sys2Proof.Machine
end

