-- ==== Sys2Proof/Machine/HostPort.lean ====
section
/-! DEFINITION. The host interface (20_memory.md R40 to R43, R52, R56; 30_encoding.md R64) and the
reset event (70_reset_and_hazards.md R140). -/

namespace Sys2Proof.Machine

/-! ## Register reads -/

/-- The current value of a register, as the host datum (20_memory.md R41). `CMD` holds nothing. -/
def readValue {c : Config} (r : Regs c) : RegName → Nat
  | .cmd => 0
  | .status => r.STATUS.toNat
  | .seen => r.SEEN.toNat
  | .wdata => r.WDATA.toNat
  | .n => r.N.toNat
  | .t => r.T.toNat
  | .rf => r.RF.toNat
  | .rp => r.RP.toNat
  | .p => r.P.toNat
  | .lfsr => r.LFSR.toNat
  | .idx => r.IDX.toNat
  | .b i => (blockWord r.B i).toNat
  | .src i => (r.srcWord i).toNat
  | .rc i => (r.rcEntry i).toNat

/-- A bad read returns 0 and records `BAD_ACCESS` (20_memory.md R43). -/
def badRead (s : State) : State := { s with regs := raiseFault .badAccess s.regs, rdata := 0 }

/-- A read that returns an unspecified value of the register's width, a new one each time
(20_memory.md R52; log 7). -/
def unspecifiedRead (width : Nat) (s : State) : State :=
  { s with regs := { s.regs with draws := s.regs.draws + 1 },
           rdata := (Config.freeBits width s.regs.draws).toNat }

/-- `HostRead(rn)` (20_memory.md R41, R43, R52). It changes no register. -/
def hostRead (rn : RegNum) (s : State) : State :=
  match regName s.cfg rn with
  | none => badRead s
  | some .cmd => badRead s
  | some x =>
    if s.regs.STATUS.gbusy && unspecifiedWhileBusy x then unspecifiedRead (regWidth s.cfg x) s
    else { s with rdata := readValue s.regs x }

/-! ## Register writes -/

/-- A parameter write (20_memory.md R56): dropped with `GEN_BUSY` while the generator is busy. -/
def paramWrite {c : Config} (r written : Regs c) : Regs c :=
  if r.STATUS.gbusy then raiseFault .genBusy r else written

/-- A write of `v` to a register other than `CMD` (20_memory.md R42, R43, R56): bits above the
register's width are dropped. -/
def writeRegister {c : Config} (v : Nat) (r : Regs c) : RegName → Regs c
  | .wdata => { r with WDATA := BitVec.ofNat c.wordBits v }
  | .src i => { r with SRC := Memory.write r.SRC i (BitVec.ofNat c.wordBits v) }
  | .n => paramWrite r { r with N := BitVec.ofNat 12 v }
  | .t => paramWrite r { r with T := BitVec.ofNat 12 v }
  | .rf => paramWrite r { r with RF := BitVec.ofNat 10 v }
  | .rp => paramWrite r { r with RP := BitVec.ofNat 10 v }
  | .p => paramWrite r { r with P := BitVec.ofNat c.nmax v }
  | .status => raiseFault .badAccess r
  | .seen => raiseFault .badAccess r
  | .lfsr => raiseFault .badAccess r
  | .idx => raiseFault .badAccess r
  | .b _ => raiseFault .badAccess r
  | .rc _ => raiseFault .badAccess r
  | .cmd => r

/-- A write of `CMD` issues the low 32 bits as a command (30_encoding.md R64): an illegal word
records `ILLEGAL_CMD` and does nothing else (R65). -/
def issueCommand (word : Command) (s : State) : Outcome :=
  match decode word with
  | .ok i => exec i s
  | .error _ => .next (s.setRegs (raiseFault .illegalCmd s.regs))

/-- `HostWrite(rn, v)` (20_memory.md R42, R43, R56). -/
def hostWrite (rn : RegNum) (v : Nat) (s : State) : Outcome :=
  match regName s.cfg rn with
  | none => .next (s.setRegs (raiseFault .badAccess s.regs))
  | some .cmd => issueCommand (BitVec.ofNat 32 v) s
  | some x => .next (s.setRegs (writeRegister v s.regs x))

/-! ## Events -/

/-- The reset event (70_reset_and_hazards.md R140): every register to its reset value, the contents
of `SRC` and `RC` unspecified anew, a generator command in progress abandoned. -/
def resetEvent (s : State) : State :=
  s.setRegs (Regs.reset s.cfg s.regs.draws (s.regs.epoch + 1))

/-- A turn of the generator unit: its completion step where enabled (42_lfsr_generator.md R104). -/
def generatorTurn (s : State) : State := s.setRegs (complete s.regs)

/-- What an event does. -/
def takeEvent (e : Event) (s : State) : Outcome :=
  match e with
  | .host (.read rn) => .next (hostRead rn s)
  | .host (.write rn v) => hostWrite rn v s
  | .generatorTurn => .next (generatorTurn s)
  | .reset => .next (resetEvent s)

/-- One step: the next event; where none is left, the generator has the turn (weak fairness of the
completion step, 70_reset_and_hazards.md R155; log 4), and a machine with nothing to do waits. -/
def advance (s : State) : Outcome :=
  match s.inputs with
  | [] => .next (generatorTurn s)
  | e :: rest => takeEvent e { s with inputs := rest }

/-- The state in which the next event is a write of `w`'s low `nbits` bits to `CMD`. -/
def queueCommand (nbits w : Nat) (s : State) : State :=
  { s with inputs := .host (.write 0 (w % 2 ^ nbits)) :: s.inputs }

end Sys2Proof.Machine
end

