-- ==== Sys2Proof/Machine/Step.lean ====
section
/-! DEFINITION. The machine's step, and how the host places one command in front of it. -/

namespace Sys2Proof.Machine

/-- One step of the machine. -/
def step (s : State) : Host.Outcome State Fault Refusal := advance s

/-- `s` with the command `w` as its next event (log 3). -/
def State.withFetchWord (s : State) (nbits w : Nat) : State := queueCommand nbits w s

end Sys2Proof.Machine
end

