-- ==== Sys2Proof/Safety.lean ====
section
/-! DEFINITION. What a safe run and a good state are (60_exceptions.md R120, 70_reset_and_hazards.md
R155, 10_state.md R21, R28, R29, R31). -/

namespace Sys2Proof.Machine

/-- `FAULT = 0`: nothing has "gone wrong" (60_exceptions.md R120). -/
def State.clean (s : State) : Bool := !s.regs.STATUS.fault

/-- A host action, as against a turn of the generator or the reset event, which the host does not
perform (00_scope.md R6, 70_reset_and_hazards.md R140). -/
def Event.isHostAction : Event → Bool
  | .host _ => true
  | .generatorTurn => false
  | .reset => false

/-- The last host action has been performed: none is left to come. -/
def State.programDone (s : State) : Bool := !s.inputs.any Event.isHostAction

/-- The run is over: the last host action has been performed and `GBUSY = 0`
(70_reset_and_hazards.md R155). -/
def State.runOver (s : State) : Bool := s.programDone && !s.regs.STATUS.gbusy

/-- Reserved bits of `STATUS` read 0 (10_state.md R29). -/
def Status.reservedZero (st : Status) : Prop := st &&& 0xFFFFFF08#32 = 0

/-- The parameters that were checked at issue still hold while the command is pending
(42_lfsr_generator.md R104). -/
def Regs.pendingUsable {c : Config} (r : Regs c) : Bool :=
  match r.GOP with
  | none => true
  | some g => paramsUsable g r && !(clearsRcv g && r.STATUS.rcv)

/-- The invariant of every reachable state: the cursor is in the block (R21), `IDX` in the table
(R28), reserved bits 0 and a cause exactly when there is a fault (R29), `GOP` valid exactly while
`GBUSY = 1` (R31), the memories canonical and within their arrays. -/
structure Regs.Good {c : Config} (r : Regs c) : Prop where
  seen_le : r.SEEN.toNat ≤ c.blockBits
  idx_le : r.IDX.toNat ≤ c.rcDepth
  reserved : r.STATUS.reservedZero
  cause_zero_iff : r.STATUS.cause = 0 ↔ r.STATUS.fault = false
  cause_le : r.STATUS.cause.toNat ≤ 5
  gop_iff : r.GOP.isSome = r.STATUS.gbusy
  pending : r.pendingUsable = true
  src_wf : Memory.wf r.SRC = true
  src_below : Memory.below r.SRC c.blockWords = true
  rc_wf : Memory.wf r.RC = true
  rc_below : Memory.below r.RC c.rcDepth = true

/-- The invariant of a machine state. -/
abbrev State.Good (s : State) : Prop := s.regs.Good

/-- What a host does to fill a block under one convention: load an operand, or inject. -/
inductive FillAction where
  /-- write `WDATA` -/
  | wdata (v : Nat)
  /-- write `SRC[i]` -/
  | src (i v : Nat)
  /-- `INJW.<c> k` -/
  | injw (k : Nat)
  /-- `INJB.<c> k` -/
  | injb (k : Nat)
  deriving DecidableEq, Repr

namespace FillAction

/-- The host action (20_memory.md R40, 30_encoding.md R67). -/
def event (cv : Conv) : FillAction → Event
  | .wdata v => .host (.write 3 v)
  | .src i v => .host (.write (BitVec.ofNat 32 (0x20000 + i)) v)
  | .injw k => .host (.write 0 (encode (.injw cv k)).toNat)
  | .injb k => .host (.write 0 (encode (.injb cv k)).toNat)

/-- No fault arises: the register exists, the count is in the range of the command. -/
def legal (c : Config) : FillAction → Bool
  | .wdata _ => true
  | .src i _ => decide (i < c.blockWords)
  | .injw k => decide (k ≤ c.wordBits)
  | .injb k => decide (k < 2 ^ 16)

end FillAction

/-- `bits` followed by `k` more bits, or `bits` alone where those do not fit the block (saturation,
40_word_injector.md R80, 41_block_injector.md R90). -/
def appendIfFits (c : Config) (bits : List Bool) (k : Nat) (bit : Nat → Bool) : List Bool :=
  if bits.length + k ≤ c.blockBits then bits ++ (List.range k).map bit else bits

/-- The bits committed, in stream order, after `actions` from `bits` on, `w` and `src` being what
`WDATA` and `SRC` hold (20_memory.md R48; 40_word_injector.md R85 (e)). -/
def streamAfter (c : Config) (cv : Conv) :
    List FillAction → (w : BitVec c.wordBits) → (src : Nat → BitVec c.wordBits) → (bits : List Bool) →
      List Bool
  | [], _, _, bits => bits
  | .wdata v :: rest, _, src, bits => streamAfter c cv rest (BitVec.ofNat c.wordBits v) src bits
  | .src i v :: rest, w, src, bits =>
    streamAfter c cv rest w (fun j => if j = i then BitVec.ofNat c.wordBits v else src j) bits
  | .injw k :: rest, w, src, bits =>
    streamAfter c cv rest w src (appendIfFits c bits k fun j => sbit c cv w j)
  | .injb k :: rest, w, src, bits =>
    streamAfter c cv rest w src
      (appendIfFits c bits k fun j => sbit c cv (src (j / c.wordBits)) (j % c.wordBits))

/-- A register number the map of 20_memory.md R40 does not list. -/
def Unmapped (c : Config) (rn : RegNum) : Prop :=
  0xA < rn.toNat ∧ ¬(0x10000 ≤ rn.toNat ∧ rn.toNat < 0x10000 + c.blockWords) ∧
  ¬(0x20000 ≤ rn.toNat ∧ rn.toNat < 0x20000 + c.blockWords) ∧
  ¬(0x1000000 ≤ rn.toNat ∧ rn.toNat < 0x1000000 + c.rcDepth)

end Sys2Proof.Machine
end

