-- ==== Sys2Proof/Certificates/Slice0/Obligations.lean ====
section
/-! DEFINITION. The statements for the provers. Each holds for every configuration, since the
configuration is a field of the state (log 1). `STATUS` bits are written as masks: GBUSY 0x1, RCV 0x2,
FAULT 0x4, CAUSE 0xF0 (10_state.md R29). -/

open Sys2Proof Sys2Proof.Machine

/-! ## Reset and the invariant -/

/-- 10_state.md R33: what every register holds after a reset. The words of `SRC` and `RC` are the free
values of log 8, which stand for "unspecified". -/
def Obligations.ResetHoldsSpecValues : Prop :=
  State.reset.regs = Regs.reset State.reset.cfg 0 0 ∧
  ∀ (c : Config) (d e : Nat),
    (∀ i, blockWord (Regs.reset c d e).B i = 0) ∧ (Regs.reset c d e).SEEN = 0 ∧
    (∀ i, (Regs.reset c d e).srcWord i = Config.powerUpSrc c.wordBits e i) ∧
    (Regs.reset c d e).WDATA = 0 ∧ (Regs.reset c d e).N = 0 ∧ (Regs.reset c d e).T = 0 ∧
    (Regs.reset c d e).RF = 0 ∧ (Regs.reset c d e).RP = 0 ∧ (Regs.reset c d e).P = 0 ∧
    (Regs.reset c d e).LFSR = 0 ∧
    (∀ i, (Regs.reset c d e).rcEntry i = Config.powerUpRc c.nmax e i) ∧
    (Regs.reset c d e).IDX = 0 ∧ (Regs.reset c d e).STATUS = 0 ∧ (Regs.reset c d e).GOP = none

/-- 70_reset_and_hazards.md R140: the reset event, in any state (a busy generator's included). That the
host's last datum and the rest of the inputs stay, and that the counters of free values go on, is the
model's choice (log 3, log 6, log 7, log 8). -/
def Obligations.ResetEventResetsEverything : Prop :=
  ∀ (s : State) (rest : List Event), s.inputs = .reset :: rest →
    step s = .next { s with inputs := rest, regs := {
      B := Vector.replicate s.cfg.blockWords 0, SEEN := 0, SRC := [], WDATA := 0, N := 0, T := 0,
      RF := 0, RP := 0, P := 0, LFSR := 0, RC := [], IDX := 0, STATUS := 0, GOP := none,
      draws := s.regs.draws, epoch := s.regs.epoch + 1 } }

/-- The reset state meets the invariant. -/
def Obligations.ResetStateIsGood : Prop := State.reset.Good

/-- Every step keeps the invariant: `SEEN <= BlockBits` (R21), `IDX <= RC_DEPTH` (R28), reserved
`STATUS` bits 0 and a cause exactly with a fault (R29), `GOP` valid exactly while `GBUSY = 1` (R31), the
checked parameters of a pending command unchanged (R104), the memories canonical. -/
def Obligations.StepKeepsGood : Prop :=
  ∀ s t : State, s.Good → step s = .next t → t.Good

/-- The configuration is no state (10_state.md R34): every step answers a next state, with the same
configuration. That no step faults or refuses is the fault mechanism of 60_exceptions.md R120. -/
def Obligations.StepRunsUnderOneConfiguration : Prop :=
  ∀ s : State, ∃ t, step s = .next t ∧ t.cfg = s.cfg

/-! ## Encoding and issue -/

/-- 30_encoding.md R60 to R64: decoding the word of a well-formed command gives that command. -/
def Obligations.DecodeOfEncodeIsTheCommand : Prop :=
  ∀ i : Instr, i.WellFormed → decode (encode i) = .ok i

/-- A word that decodes is the word of its command, and lies in its row of R64's table. -/
def Obligations.DecodedWordIsItsEncoding : Prop :=
  ∀ (w : Command) (i : Instr), decode w = .ok i →
    i.WellFormed ∧ encode i = w ∧ w &&& tableMask i = tableMatch i

/-- Words of 95_test_vectors.md section 7. -/
def Obligations.SpecWordsDecode : Prop :=
  decode 0x10000008 = .ok (.injwBB 8) ∧ decode 0x1400FFFF = .ok (.injwLB 65535) ∧
  decode 0x1C000003 = .ok (.injwLL 3) ∧ decode 0x2800FFFF = .ok (.injbBL 65535) ∧
  decode 0x30000000 = .ok .bclr ∧ decode 0x80000000 = .ok .linit ∧
  decode 0xA0000000 = .ok .advf ∧ decode 0xC0000000 = .ok .gent ∧
  decode 0 = .error .reservedOp ∧ decode 0x10010000 = .error .zeroField ∧
  decode 0x34000000 = .error .unusedConv ∧ decode 0xC0000001 = .error .unusedCount

/-- A write of `CMD` runs the decoded command (30_encoding.md R64), the input taken; and the word the
host places in front of a state runs as its command in that state. -/
def Obligations.CommandWriteRunsTheDecodedCommand : Prop :=
  (∀ (s : State) (v : Nat) (rest : List Event) (i : Instr),
    s.inputs = .host (.write 0 v) :: rest → decode (BitVec.ofNat 32 v) = .ok i →
      step s = exec i { s with inputs := rest }) ∧
  ∀ (s : State) (i : Instr), i.WellFormed → step (s.withFetchWord 32 (encode i).toNat) = exec i s

/-- 60_exceptions.md R122: a word that is not one of the fourteen commands. -/
def Obligations.UnencodedWordRecordsIllegalCmd : Prop :=
  ∀ (s : State) (v : Nat) (rest : List Event), s.inputs = .host (.write 0 v) :: rest →
    (∀ i : Instr, i.WellFormed → encode i ≠ BitVec.ofNat 32 v) →
      step s = .next { s with inputs := rest, regs := raiseFault .illegalCmd s.regs }

/-! ## Faults -/

/-- 60_exceptions.md R120, R121: recording a fault writes `STATUS` only, by the codes of the table. -/
def Obligations.RaiseFaultWritesFirstCause : Prop :=
  ∀ (c : Config) (r : Regs c) (cause : Cause) (code : BitVec 32),
    (cause, code) ∈ [(Cause.illegalCmd, 1#32), (.kRange, 2#32), (.genBusy, 3#32), (.genParam, 4#32),
      (.badAccess, 5#32)] →
    raiseFault cause r = { r with
      STATUS := if r.STATUS &&& 0x4#32 = 0 then r.STATUS &&& ~~~0xF0#32 ||| code <<< 4 ||| 0x4#32 else r.STATUS }

/-- 60_exceptions.md R120: "`FAULT` is sticky and `CAUSE` keeps the cause of the first fault; only reset
clears them". -/
def Obligations.FaultRecordIsSticky : Prop :=
  ∀ s t : State, step s = .next t → (∀ rest, s.inputs ≠ .reset :: rest) →
    s.regs.STATUS.fault = true →
      t.regs.STATUS.fault = true ∧ t.regs.STATUS.cause = s.regs.STATUS.cause

/-- 60_exceptions.md R123: `INJW` with `k > WordBits`, whatever the cursor; `INJB` never. -/
def Obligations.OverlongWordInjectionFaults : Prop :=
  (∀ (cv : Conv) (k : Nat) (s : State), s.cfg.wordBits < k →
    exec (.injw cv k) s = .next (s.setRegs (raiseFault .kRange s.regs))) ∧
  ∀ (cv : Conv) (k : Nat) (s : State),
    ∃ t, exec (.injb cv k) s = .next t ∧ t.regs.STATUS = s.regs.STATUS

/-- 60_exceptions.md R124: a generator command or a parameter write while `GBUSY = 1` is dropped. -/
def Obligations.BusyGeneratorDropsCommandsAndWrites : Prop :=
  ∀ s : State, s.regs.STATUS.gbusy = true →
    (∀ i ∈ [Instr.linit, .advr, .advf, .genc, .gent],
      exec i s = .next (s.setRegs (raiseFault .genBusy s.regs))) ∧
    ∀ (rn : RegNum) (v : Nat) (rest : List Event), rn ∈ [4, 5, 6, 7, 8] →
      s.inputs = .host (.write rn v) :: rest →
        step s = .next { s with inputs := rest, regs := raiseFault .genBusy s.regs }

/-- 60_exceptions.md R125: parameters unusable at issue; every other set of parameters is accepted, an
empty table and a modulus no candidate is below included. -/
def Obligations.UnusableParametersFault : Prop :=
  ∀ s : State, s.regs.STATUS.gbusy = false →
    (s.regs.N = 0 ∨ s.cfg.nmax < s.regs.N.toNat ∨ s.regs.P = 0 ∨ s.cfg.rcDepth ≤ s.regs.IDX.toNat →
      exec .genc s = .next (s.setRegs (raiseFault .genParam s.regs))) ∧
    (s.regs.N = 0 ∨ s.cfg.nmax < s.regs.N.toNat ∨ s.regs.P = 0 ∨
        s.cfg.rcDepth < (s.regs.RF.toNat + s.regs.RP.toNat) * s.regs.T.toNat →
      exec .gent s = .next (s.setRegs (raiseFault .genParam s.regs))) ∧
    (s.regs.N ≠ 0 → s.regs.N.toNat ≤ s.cfg.nmax → s.regs.P ≠ 0 →
      (s.regs.IDX.toNat < s.cfg.rcDepth →
        ∃ t, exec .genc s = .next t ∧ t.regs.STATUS.fault = s.regs.STATUS.fault ∧
          t.regs.STATUS.gbusy = true ∧ t.regs.GOP = some .genc) ∧
      (s.regs.T = 0 ∨ s.regs.RF.toNat + s.regs.RP.toNat = 0 ∨
          (s.regs.RF.toNat + s.regs.RP.toNat) * s.regs.T.toNat ≤ s.cfg.rcDepth →
        ∃ t, exec .gent s = .next t ∧ t.regs.STATUS.fault = s.regs.STATUS.fault ∧
          t.regs.STATUS.gbusy = true ∧ t.regs.GOP = some .gent))

/-! ## The stream bit order -/

/-- 20_memory.md R47: `phys_c` is a bijection on `0 .. W-1`; the unit of a stream offset counts from the
top under big-unit order and from the bottom under little-unit order, its bit likewise by bit order. -/
def Obligations.PhysFollowsUnitAndBitOrder : Prop :=
  ∀ (c : Config) (cv : Conv),
    Set.BijOn (phys c.wordBits c.unitBits cv) (Set.Iio c.wordBits) (Set.Iio c.wordBits) ∧
    ∀ q < c.wordBits,
      phys c.wordBits c.unitBits cv q / c.unitBits =
        (if cv = .bb ∨ cv = .bl then c.wordBits / c.unitBits - 1 - q / c.unitBits else q / c.unitBits) ∧
      phys c.wordBits c.unitBits cv q % c.unitBits =
        (if cv = .bb ∨ cv = .lb then c.unitBits - 1 - q % c.unitBits else q % c.unitBits)

/-- The masks of 40_word_injector.md R82 and R83 select the first `k` stream bits of a word. -/
def Obligations.UnitOrderedMasksSelectFirstStreamBits : Prop :=
  ∀ (c : Config) (k b : Nat), k ≤ c.wordBits → b < c.wordBits →
    let kr := k % c.unitBits
    let ku := k - kr
    ((lowBits c.wordBits ku |||
        BitVec.ofNat c.wordBits (((2 ^ kr - 1) * 2 ^ (c.unitBits - kr)) <<< ku)).getLsbD b = true ↔
      ∃ j < k, phys c.wordBits c.unitBits .lb j = b) ∧
    ((if kr = 0 then highBits c.wordBits ku
      else highBits c.wordBits ku |||
        BitVec.ofNat c.wordBits ((2 ^ kr - 1) <<< (c.wordBits - ku - c.unitBits))).getLsbD b = true ↔
      ∃ j < k, phys c.wordBits c.unitBits .bl j = b)

/-! ## The word injector -/

/-- 40_word_injector.md R80, for INJW.BB, INJW.LB, INJW.BL, INJW.LL: where the bits do not fit or the
block is full nothing changes; else the cursor advances by `k`, the committed bits stay, the first `k`
stream bits of `WDATA` follow, the rest of the cursor's word and on a spill of the next word becomes 0,
every other bit of the block and every other register stays. -/
def Obligations.InjwCommitsStreamBits : Prop :=
  ∀ (cv : Conv) (k : Nat) (s : State), k ≤ s.cfg.wordBits →
    (s.cfg.blockBits < s.regs.SEEN.toNat + k ∨ s.regs.SEEN.toNat = s.cfg.blockBits →
      exec (.injw cv k) s = .next s) ∧
    (s.regs.SEEN.toNat + k ≤ s.cfg.blockBits → s.regs.SEEN.toNat < s.cfg.blockBits →
      ∃ B', exec (.injw cv k) s =
          .next { s with regs := { s.regs with
            B := B', SEEN := BitVec.ofNat 16 (s.regs.SEEN.toNat + k) } } ∧
        ∀ p < s.cfg.blockBits, streamBit s.cfg cv B' p =
          if p < s.regs.SEEN.toNat then streamBit s.cfg cv s.regs.B p
          else if p < s.regs.SEEN.toNat + k then sbit s.cfg cv s.regs.WDATA (p - s.regs.SEEN.toNat)
          else if p / s.cfg.wordBits = s.regs.SEEN.toNat / s.cfg.wordBits ∨
              (p / s.cfg.wordBits = s.regs.SEEN.toNat / s.cfg.wordBits + 1 ∧
               s.cfg.wordBits < s.regs.SEEN.toNat % s.cfg.wordBits + k) then false
          else streamBit s.cfg cv s.regs.B p)

/-- 40_word_injector.md R81: `INJW.BB`, its word, and its effect by masks and shifts, step for step. -/
def Obligations.InjwBBIsMaskAndShift : Prop :=
  (∀ k < 2 ^ 16, encode (.injwBB k) = 0x10000000#32 ||| BitVec.ofNat 32 k) ∧
  ∀ (k : Nat) (s : State), exec (.injwBB k) s = .next (
    if s.cfg.wordBits < k then s.setRegs (raiseFault .kRange s.regs)
    else if s.cfg.blockBits < s.regs.SEEN.toNat + k ∨ s.regs.SEEN.toNat = s.cfg.blockBits then s
    else
      let i := s.regs.SEEN.toNat / s.cfg.wordBits
      let r := s.regs.SEEN.toNat % s.cfg.wordBits
      let w := s.regs.WDATA &&& highBits s.cfg.wordBits k
      let B' := s.regs.B.setIfInBounds i (blockWord s.regs.B i &&& highBits s.cfg.wordBits r ||| w >>> r)
      s.setRegs { s.regs with
        B := if s.cfg.wordBits < r + k then B'.setIfInBounds (i + 1) (w <<< (s.cfg.wordBits - r)) else B',
        SEEN := s.regs.SEEN + BitVec.ofNat 16 k })

/-- 40_word_injector.md R84: `INJW.LL`, its word, and its effect by masks and shifts, the mirror. -/
def Obligations.InjwLLIsMaskAndShift : Prop :=
  (∀ k < 2 ^ 16, encode (.injwLL k) = 0x1C000000#32 ||| BitVec.ofNat 32 k) ∧
  ∀ (k : Nat) (s : State), exec (.injwLL k) s = .next (
    if s.cfg.wordBits < k then s.setRegs (raiseFault .kRange s.regs)
    else if s.cfg.blockBits < s.regs.SEEN.toNat + k ∨ s.regs.SEEN.toNat = s.cfg.blockBits then s
    else
      let i := s.regs.SEEN.toNat / s.cfg.wordBits
      let r := s.regs.SEEN.toNat % s.cfg.wordBits
      let w := s.regs.WDATA &&& lowBits s.cfg.wordBits k
      let B' := s.regs.B.setIfInBounds i (blockWord s.regs.B i &&& lowBits s.cfg.wordBits r ||| w <<< r)
      s.setRegs { s.regs with
        B := if s.cfg.wordBits < r + k then B'.setIfInBounds (i + 1) (w >>> (s.cfg.wordBits - r)) else B',
        SEEN := s.regs.SEEN + BitVec.ofNat 16 k })

/-- 40_word_injector.md R85 (b), (c), (d): where the conventions coincide. -/
def Obligations.ConventionsCoincide : Prop :=
  ∀ (k : Nat) (s : State),
    (s.cfg.unitBits = s.cfg.wordBits →
      exec (.injwLB k) s = exec (.injwBB k) s ∧ exec (.injwBL k) s = exec (.injwLL k) s) ∧
    (s.cfg.unitBits = 1 →
      exec (.injwLB k) s = exec (.injwLL k) s ∧ exec (.injwBL k) s = exec (.injwBB k) s) ∧
    (s.regs.SEEN.toNat % s.cfg.unitBits = 0 → k % s.cfg.unitBits = 0 →
      exec (.injwLB k) s = exec (.injwLL k) s ∧ exec (.injwBL k) s = exec (.injwBB k) s)

/-- 40_word_injector.md R85 (e), the round trip, through the host interface: after any sequence of
`WDATA` and `SRC` writes, word injections and block injections under one convention into a cleared
block, reading the block back gives the injected stream and then zeros. An injection that does not fit
adds nothing to the stream. -/
def Obligations.InjectedStreamReadsBack : Prop :=
  ∀ (cv : Conv) (actions : List FillAction) (s : State),
    s.regs.B = Vector.replicate s.cfg.blockWords 0 → s.regs.SEEN = 0 →
    (∀ a ∈ actions, a.legal s.cfg = true) → s.inputs = actions.map (FillAction.event cv) →
      let stream := streamAfter s.cfg cv actions s.regs.WDATA s.regs.srcWord []
      ∃ B' w' m, core.run actions.length s = .next { s with
          inputs := [],
          regs := { s.regs with
            B := B', WDATA := w', SRC := m, SEEN := BitVec.ofNat 16 stream.length } } ∧
        stream.length ≤ s.cfg.blockBits ∧
        ∀ p < s.cfg.blockBits, streamBit s.cfg cv B' p = stream.getD p false

/-- 40_word_injector.md R87: `BCLR`, its word and its effect, in any state (a busy generator's
included). -/
def Obligations.BclrEmptiesTheBlock : Prop :=
  decode 0x30000000 = .ok .bclr ∧
  ∀ s : State, ∃ B', exec .bclr s = .next { s with regs := { s.regs with B := B', SEEN := 0 } } ∧
    ∀ i, blockWord B' i = 0

/-! ## The block injector -/

/-- 41_block_injector.md R90 and its derived facts, for INJB.BB, INJB.LB, INJB.BL, INJB.LL: past capacity
nothing changes; else the first `k` stream bits of `SRC` follow the committed ones, the rest of the last
word written becomes 0, and nothing else changes. -/
def Obligations.InjbCommitsStreamBits : Prop :=
  ∀ (cv : Conv) (k : Nat) (s : State),
    (s.cfg.blockBits < k + s.regs.SEEN.toNat → exec (.injb cv k) s = .next s) ∧
    (k + s.regs.SEEN.toNat ≤ s.cfg.blockBits →
      ∃ B', exec (.injb cv k) s =
          .next { s with regs := { s.regs with
            B := B', SEEN := BitVec.ofNat 16 (s.regs.SEEN.toNat + k) } } ∧
        ∀ p < s.cfg.blockBits, streamBit s.cfg cv B' p =
          if p < s.regs.SEEN.toNat then streamBit s.cfg cv s.regs.B p
          else if p < s.regs.SEEN.toNat + k then
            sbit s.cfg cv (s.regs.srcWord ((p - s.regs.SEEN.toNat) / s.cfg.wordBits))
              ((p - s.regs.SEEN.toNat) % s.cfg.wordBits)
          else if k ≠ 0 ∧ p / s.cfg.wordBits ≤ (s.regs.SEEN.toNat + k - 1) / s.cfg.wordBits then false
          else streamBit s.cfg cv s.regs.B p)

/-- 41_block_injector.md R95: a block injection is the sequence of word injections of `SRC`'s words,
each put into `WDATA` first. -/
def Obligations.InjbIsASequenceOfInjw : Prop :=
  ∀ (cv : Conv) (n r : Nat) (s : State), r < s.cfg.wordBits →
    s.regs.SEEN.toNat + n * s.cfg.wordBits + r ≤ s.cfg.blockBits →
      let whole := (List.range n).foldl
        (fun q j => injwCommand cv s.cfg.wordBits { q with WDATA := s.regs.srcWord j }) s.regs
      let all := if r ≠ 0 then injwCommand cv r { whole with WDATA := s.regs.srcWord n } else whole
      exec (.injb cv (n * s.cfg.wordBits + r)) s =
        .next (s.setRegs { all with WDATA := s.regs.WDATA })

/-! ## Independence and monotony -/

/-- 10_state.md R35: the injector commands (INJW, INJB, BCLR) write `B` and `SEEN` only, and `STATUS`
only to record `K_RANGE`. -/
def Obligations.InjectorWritesOnlyBlockAndCursor : Prop :=
  ∀ (i : Instr) (s : State), ((∃ cv k, i = .injw cv k) ∨ (∃ cv k, i = .injb cv k) ∨ i = .bclr) →
    ∃ B' n st, exec i s = .next { s with regs := { s.regs with B := B', SEEN := n, STATUS := st } } ∧
      (st ≠ s.regs.STATUS →
        B' = s.regs.B ∧ n = s.regs.SEEN ∧ st = s.regs.STATUS.recordFault .kRange ∧
        ∃ cv k, s.cfg.wordBits < k ∧ i = .injw cv k)

/-- 10_state.md R35, 42_lfsr_generator.md R104: a turn of the generator changes `LFSR`, `RC`, `IDX`,
`GOP` and the bits `GBUSY` and `RCV` only (and the model's count of free values); it raises no fault; the
entries of `RC` it writes lie at `IDX` (`GENC`) or in the table (`GENT`). -/
def Obligations.GeneratorTurnWritesOnlyGeneratorState : Prop :=
  ∀ (c : Config) (r : Regs c), ∃ L rc idx st op d,
    complete r = { r with LFSR := L, RC := rc, IDX := idx, STATUS := st, GOP := op, draws := d } ∧
    (∀ j, 2 ≤ j → st.getLsbD j = r.STATUS.getLsbD j) ∧
    ∀ i, Memory.read rc i ≠ Memory.read r.RC i →
      (r.GOP = some .genc ∧ i = r.IDX.toNat) ∨
      (r.GOP = some .gent ∧ i < (r.RF.toNat + r.RP.toNat) * r.T.toNat)

/-- 10_state.md R21: the cursor is advanced monotonically; only `BCLR` and reset lower it. -/
def Obligations.CursorFallsOnlyByClearOrReset : Prop :=
  ∀ s t : State, step s = .next t → (∀ rest, s.inputs ≠ .reset :: rest) →
    (∀ v rest, s.inputs = .host (.write 0 v) :: rest → decode (BitVec.ofNat 32 v) ≠ .ok .bclr) →
      s.regs.SEEN.toNat ≤ t.regs.SEEN.toNat

/-- 42_lfsr_generator.md R104: between issue and completion no host action changes what the effect
reads, nor `GOP`, nor `GBUSY`. -/
def Obligations.PendingOperandsAreStable : Prop :=
  ∀ (s : State) (a : HostAction) (rest : List Event), s.regs.STATUS.gbusy = true →
    s.inputs = .host a :: rest →
      ∃ r' rd, step s = .next { s with regs := r', inputs := rest, rdata := rd } ∧
        r'.N = s.regs.N ∧ r'.T = s.regs.T ∧ r'.RF = s.regs.RF ∧ r'.RP = s.regs.RP ∧ r'.P = s.regs.P ∧
        r'.LFSR = s.regs.LFSR ∧ r'.IDX = s.regs.IDX ∧ r'.RC = s.regs.RC ∧ r'.GOP = s.regs.GOP ∧
        r'.STATUS.gbusy = true

/-! ## The generator -/

/-- 42_lfsr_generator.md R101: `advance_raw` shifts left by one and enters the exclusive or of bits 79,
66, 56, 41, 28 and 17 at bit 0; and the consequences of that. -/
def Obligations.AdvanceRawIsALinearBijection : Prop :=
  (∀ (S : LfsrWord) (i : Nat), i < 80 → (advanceRaw S).getLsbD i =
    if i = 0 then S.getLsbD 79 ^^ S.getLsbD 66 ^^ S.getLsbD 56 ^^ S.getLsbD 41 ^^ S.getLsbD 28 ^^ S.getLsbD 17
    else S.getLsbD (i - 1)) ∧
  Function.Bijective advanceRaw ∧ advanceRaw 0 = 0 ∧
  ∀ a b : LfsrWord, advanceRaw (a ^^^ b) = advanceRaw a ^^^ advanceRaw b

/-- 42_lfsr_generator.md R102: the unbounded loop. The result is the advance after the first one that
leaves bit 79 set; it is defined exactly for `S ≠ 0`, within 80 checks. -/
def Obligations.AdvanceFilteredStopsAtFirstSetBit : Prop :=
  (∀ S S' : LfsrWord, advanceFiltered S = some S' ↔
    ∃ m, 1 ≤ m ∧ (advanceRaw^[m] S).getLsbD 79 = true ∧
      (∀ j, 1 ≤ j → j < m → (advanceRaw^[j] S).getLsbD 79 = false) ∧ S' = advanceRaw^[m + 1] S) ∧
  (∀ S : LfsrWord, advanceFiltered S = none ↔ S = 0) ∧
  ∀ S : LfsrWord, S ≠ 0 → ∃ m, 1 ≤ m ∧ m ≤ 80 ∧ (advanceRaw^[m] S).getLsbD 79 = true

/-- 42_lfsr_generator.md R103: a candidate is `n` output bits, one for each filtered advance, the first
one most significant. -/
def Obligations.CandidateBitsAreMsbFirst : Prop :=
  ∀ (n : Nat) (S : LfsrWord), S ≠ 0 →
    ∃ (S' : LfsrWord) (k : Nat) (at' : Nat → LfsrWord), candidateFrom n 0 S = some (S', k) ∧ k < 2 ^ n ∧
      at' 0 = S ∧ at' n = S' ∧
      ∀ b < n, advanceFiltered (at' b) = some (at' (b + 1)) ∧
        k.testBit (n - 1 - b) = (at' (b + 1)).getLsbD 79

/-- 42_lfsr_generator.md R103, R128: `next_constant` is the first candidate below `p`, however late it
comes: no iteration cap. -/
def Obligations.NextConstantHasNoIterationCap : Prop :=
  ∀ (S S' : LfsrWord) (n p k : Nat),
    let candidate : Option (LfsrWord × Nat) → Option (LfsrWord × Nat) :=
      fun o => o.bind fun x => candidateFrom n 0 x.1
    nextConstant S n p = some (S', k) ↔
      ∃ j, candidate^[j + 1] (some (S, 0)) = some (S', k) ∧ k < p ∧
        ∀ i < j, ∃ x, candidate^[i + 1] (some (S, 0)) = some x ∧ p ≤ x.2

/-- 42_lfsr_generator.md R100, R104, R105: `LINIT` is accepted by an idle generator, and its completion
leaves the seed, advanced 160 times raw. -/
def Obligations.LinitSeedsAndIdles : Prop :=
  ∀ s : State, s.regs.STATUS.gbusy = false →
    let seed := BitVec.ofNat 80 (s.cfg.fieldType.toNat * 2 ^ 78 + s.cfg.sboxType.toNat * 2 ^ 74 +
      s.regs.N.toNat * 2 ^ 62 + s.regs.T.toNat * 2 ^ 50 + s.regs.RF.toNat * 2 ^ 40 +
      s.regs.RP.toNat * 2 ^ 30 + (2 ^ 30 - 1))
    let issued : Regs s.cfg :=
      { s.regs with STATUS := (s.regs.STATUS ||| 0x1#32) &&& ~~~0x2#32, GOP := some .linit }
    exec .linit s = .next (s.setRegs issued) ∧
    complete issued = { s.regs with
      LFSR := advanceRaw^[160] seed, IDX := 0, STATUS := s.regs.STATUS &&& ~~~0x3#32, GOP := none } ∧
    advanceRaw^[160] seed ≠ 0

/-- 42_lfsr_generator.md R101, R104, R106: `ADVR`, accepted and completed; the new `LFSR` as the number
`trunc_80((LFSR << 1) | nb)`. -/
def Obligations.AdvrAdvancesOnce : Prop :=
  ∀ s : State, s.regs.STATUS.gbusy = false →
    let issued : Regs s.cfg := { s.regs with STATUS := s.regs.STATUS ||| 0x1#32, GOP := some .advr }
    exec .advr s = .next (s.setRegs issued) ∧
    complete issued = { s.regs with LFSR := advanceRaw s.regs.LFSR, GOP := none } ∧
    let nb := s.regs.LFSR.getLsbD 79 ^^ s.regs.LFSR.getLsbD 66 ^^ s.regs.LFSR.getLsbD 56 ^^
      s.regs.LFSR.getLsbD 41 ^^ s.regs.LFSR.getLsbD 28 ^^ s.regs.LFSR.getLsbD 17
    (complete issued).LFSR.toNat = (s.regs.LFSR.toNat * 2 + nb.toNat) % 2 ^ 80

/-- 42_lfsr_generator.md R104, R107: `ADVF`, accepted, and completed for every `LFSR` but 0. -/
def Obligations.AdvfAdvancesPastTheFirstSetBit : Prop :=
  ∀ s : State, s.regs.STATUS.gbusy = false →
    let issued : Regs s.cfg := { s.regs with STATUS := s.regs.STATUS ||| 0x1#32, GOP := some .advf }
    exec .advf s = .next (s.setRegs issued) ∧
    (s.regs.LFSR ≠ 0 → ∃ m, 1 ≤ m ∧ m ≤ 80 ∧
      (∀ j, 1 ≤ j → j < m → (advanceRaw^[j] s.regs.LFSR).getLsbD 79 = false) ∧
      (advanceRaw^[m] s.regs.LFSR).getLsbD 79 = true ∧
      complete issued = { s.regs with LFSR := advanceRaw^[m + 1] s.regs.LFSR, GOP := none })

/-- 42_lfsr_generator.md R104, R108: `GENC`, accepted with usable parameters; where the rejection loop
finds a constant, completion stores it at `IDX` and steps `IDX`; where it never ends, the command never
completes (R148). What `IDX` becomes where the sum does not fit 23 bits is a free value (log 9), of which
nothing is said. -/
def Obligations.GencStoresTheNextConstant : Prop :=
  ∀ s : State, s.regs.STATUS.gbusy = false → 1 ≤ s.regs.N.toNat → s.regs.N.toNat ≤ s.cfg.nmax →
    s.regs.P ≠ 0 → s.regs.IDX.toNat < s.cfg.rcDepth →
    let issued : Regs s.cfg :=
      { s.regs with STATUS := (s.regs.STATUS ||| 0x1#32) &&& ~~~0x2#32, GOP := some .genc }
    exec .genc s = .next (s.setRegs issued) ∧
    (nextConstant s.regs.LFSR s.regs.N.toNat s.regs.P.toNat = none → complete issued = issued) ∧
    ∀ S k, nextConstant s.regs.LFSR s.regs.N.toNat s.regs.P.toNat = some (S, k) →
      ∃ rc idx d, complete issued = { s.regs with
          LFSR := S, RC := rc, IDX := idx, draws := d, STATUS := s.regs.STATUS &&& ~~~0x3#32, GOP := none } ∧
        (∀ i, Memory.read rc i =
          if i = s.regs.IDX.toNat then some (BitVec.ofNat s.cfg.nmax k) else Memory.read s.regs.RC i) ∧
        (s.regs.IDX.toNat + 1 < 2 ^ 23 → idx.toNat = s.regs.IDX.toNat + 1 ∧ d = s.regs.draws)

/-- 42_lfsr_generator.md R104, R109: `GENT`, accepted with usable parameters, has the effect of `LINIT`
and then `(RF + RP) × T` times `GENC`, and sets `RCV`; where one of those is undefined it never
completes. -/
def Obligations.GentIsLinitThenGencs : Prop :=
  ∀ s : State, s.regs.STATUS.gbusy = false → 1 ≤ s.regs.N.toNat → s.regs.N.toNat ≤ s.cfg.nmax →
    s.regs.P ≠ 0 → (s.regs.RF.toNat + s.regs.RP.toNat) * s.regs.T.toNat ≤ s.cfg.rcDepth →
    let issued : Regs s.cfg :=
      { s.regs with STATUS := (s.regs.STATUS ||| 0x1#32) &&& ~~~0x2#32, GOP := some .gent }
    let composed := (fun o : Option (Regs s.cfg) => o.bind gencEffect)^[
      (s.regs.RF.toNat + s.regs.RP.toNat) * s.regs.T.toNat] (linitEffect s.regs)
    exec .gent s = .next (s.setRegs issued) ∧
    complete issued = composed.elim issued fun r' => { s.regs with
      LFSR := r'.LFSR, RC := r'.RC, IDX := r'.IDX,
      STATUS := (s.regs.STATUS ||| 0x2#32) &&& ~~~0x1#32, GOP := none }

/-- 42_lfsr_generator.md R111 and 10_state.md R27: after a completed `GENT` every entry of the table is
below `P` and below `2^N`, and the entries beyond it are as before. -/
def Obligations.CompletedTableIsBelowTheModulus : Prop :=
  ∀ (c : Config) (r : Regs c), r.STATUS.gbusy = true → r.GOP = some .gent →
    (complete r).STATUS.gbusy = false →
    (∀ i < (r.RF.toNat + r.RP.toNat) * r.T.toNat,
      ((complete r).rcEntry i).toNat < r.P.toNat ∧ ((complete r).rcEntry i).toNat < 2 ^ r.N.toNat) ∧
    ∀ i, (r.RF.toNat + r.RP.toNat) * r.T.toNat ≤ i → (complete r).rcEntry i = r.rcEntry i

/-- 42_lfsr_generator.md R110: two runs of `GENT` with the same parameters complete or hang together, and
give the same table, whatever `LFSR`, `IDX`, `RC` and the injector held before. -/
def Obligations.TableDependsOnParametersOnly : Prop :=
  ∀ (c : Config) (r₁ r₂ : Regs c),
    r₁.STATUS.gbusy = true → r₂.STATUS.gbusy = true → r₁.GOP = some .gent → r₂.GOP = some .gent →
    r₁.N = r₂.N → r₁.T = r₂.T → r₁.RF = r₂.RF → r₁.RP = r₂.RP → r₁.P = r₂.P →
    (complete r₁).STATUS.gbusy = (complete r₂).STATUS.gbusy ∧
    ((complete r₁).STATUS.gbusy = false →
      (complete r₁).LFSR = (complete r₂).LFSR ∧ (complete r₁).IDX = (complete r₂).IDX ∧
      ∀ i < (r₁.RF.toNat + r₁.RP.toNat) * r₁.T.toNat, (complete r₁).rcEntry i = (complete r₂).rcEntry i)

/-- 70_reset_and_hazards.md R147: with `LFSR = 0` a pending `ADVF` or `GENC` never completes: the turn of
the generator changes nothing. -/
def Obligations.ZeroLfsrHangsFilteredCommands : Prop :=
  ∀ s : State, s.inputs = [] → s.regs.STATUS.gbusy = true → s.regs.LFSR = 0 →
    (s.regs.GOP = some .advf ∨ (s.regs.GOP = some .genc ∧ 1 ≤ s.regs.N.toNat)) → step s = .next s

/-- 70_reset_and_hazards.md R147: "`LFSR = 0` can arise only from reset". -/
def Obligations.LfsrBecomesZeroOnlyByReset : Prop :=
  ∀ s t : State, step s = .next t → (∀ rest, s.inputs ≠ .reset :: rest) → s.regs.LFSR ≠ 0 →
    t.regs.LFSR ≠ 0

/-- 42_lfsr_generator.md R104, 70_reset_and_hazards.md R155: a turn of the generator is its completion
step, taken where the inputs say so and, by fairness, where no input is left; with nothing pending the
machine waits. The place of the turn in the inputs is the model's choice (log 3, log 4). -/
def Obligations.GeneratorTurnCompletes : Prop :=
  (∀ (s : State) (rest : List Event), s.inputs = .generatorTurn :: rest →
    step s = .next { s with inputs := rest, regs := complete s.regs }) ∧
  (∀ s : State, s.inputs = [] → step s = .next { s with regs := complete s.regs }) ∧
  (∀ (s : State) (g : GenOp) (r' : Regs s.cfg), s.inputs = [] → s.regs.STATUS.gbusy = true →
    s.regs.GOP = some g → effect g s.regs = some r' →
      ∃ t, step s = .next t ∧ t.regs.STATUS.gbusy = false ∧ t.regs.GOP = none) ∧
  ∀ s : State, s.inputs = [] → s.regs.STATUS.gbusy = false → step s = .next s

/-- 70_reset_and_hazards.md R155: when a run is over, and that it stays over; and a state with no host
action left and `GBUSY = 1` is not final: by its next step it is over if the completion step is enabled,
and it hangs, its registers unchanged, if not (unless the reset event comes, which ends it). That an
enabled completion is taken by the very next step is the model's choice (log 4). -/
def Obligations.RunIsOverOrCompletesOrHangs : Prop :=
  (∀ s : State, s.runOver = true ↔ (∀ a, Event.host a ∉ s.inputs) ∧ s.regs.STATUS.gbusy = false) ∧
  (∀ s t : State, s.runOver = true → step s = .next t → t.runOver = true) ∧
  ∀ (s : State) (g : GenOp), (∀ a, Event.host a ∉ s.inputs) → s.regs.STATUS.gbusy = true →
    s.regs.GOP = some g →
      if (effect g s.regs).isSome ∨ s.inputs.head? = some .reset then
        ∃ t, step s = .next t ∧ t.runOver = true
      else step s = .next { s with inputs := s.inputs.tail } ∧ s.runOver = false

/-! ## Host reads and writes -/

/-- 20_memory.md R40, R41: a read returns the register's value and changes nothing else. -/
def Obligations.HostReadReturnsTheRegister : Prop :=
  ∀ (s : State) (rn : RegNum) (rest : List Event), s.inputs = .host (.read rn) :: rest →
    let reads (v : Nat) : Prop := step s = .next { s with inputs := rest, rdata := v }
    (rn = 1 → reads s.regs.STATUS.toNat) ∧ (rn = 2 → reads s.regs.SEEN.toNat) ∧
    (rn = 3 → reads s.regs.WDATA.toNat) ∧ (rn = 4 → reads s.regs.N.toNat) ∧
    (rn = 5 → reads s.regs.T.toNat) ∧ (rn = 6 → reads s.regs.RF.toNat) ∧
    (rn = 7 → reads s.regs.RP.toNat) ∧ (rn = 8 → reads s.regs.P.toNat) ∧
    (∀ i < s.cfg.blockWords, rn = BitVec.ofNat 32 (0x10000 + i) → reads (blockWord s.regs.B i).toNat) ∧
    (∀ i < s.cfg.blockWords, rn = BitVec.ofNat 32 (0x20000 + i) → reads (s.regs.srcWord i).toNat) ∧
    (s.regs.STATUS.gbusy = false →
      (rn = 9 → reads s.regs.LFSR.toNat) ∧ (rn = 10 → reads s.regs.IDX.toNat) ∧
      ∀ i < s.cfg.rcDepth, rn = BitVec.ofNat 32 (0x1000000 + i) → reads (s.regs.rcEntry i).toNat)

/-- 20_memory.md R52: a read of `LFSR`, `IDX` or `RC[i]` while busy returns some value of the register's
width, of which nothing is said (a free value, log 7), raises no fault and changes no register. -/
def Obligations.BusyReadIsSomeValueOfTheWidth : Prop :=
  ∀ (s : State) (rn : RegNum) (rest : List Event), s.inputs = .host (.read rn) :: rest →
    s.regs.STATUS.gbusy = true →
    let reads (width : Nat) : Prop := ∃ v < 2 ^ width, step s = .next { s with
      inputs := rest, rdata := v, regs := { s.regs with draws := s.regs.draws + 1 } }
    (rn = 9 → reads 80) ∧ (rn = 10 → reads 23) ∧
    ∀ i < s.cfg.rcDepth, rn = BitVec.ofNat 32 (0x1000000 + i) → reads s.cfg.nmax

/-- 20_memory.md R43: bad accesses. A bad read returns 0, a bad write changes nothing else. -/
def Obligations.BadAccessIsRecordedAndDropped : Prop :=
  ∀ (s : State) (rn : RegNum) (rest : List Event),
    (s.inputs = .host (.read rn) :: rest → (rn = 0 ∨ Unmapped s.cfg rn) →
      step s = .next { s with inputs := rest, rdata := 0, regs := raiseFault .badAccess s.regs }) ∧
    ∀ v, s.inputs = .host (.write rn v) :: rest →
      (rn = 1 ∨ rn = 2 ∨ rn = 9 ∨ rn = 10 ∨
        (∃ i < s.cfg.blockWords, rn = BitVec.ofNat 32 (0x10000 + i)) ∨
        (∃ i < s.cfg.rcDepth, rn = BitVec.ofNat 32 (0x1000000 + i)) ∨ Unmapped s.cfg rn) →
      step s = .next { s with inputs := rest, regs := raiseFault .badAccess s.regs }

/-- 20_memory.md R42: a write stores what fits the register: the parameters while the generator is idle,
`WDATA` and `SRC` always; other words of `SRC` stay. -/
def Obligations.HostWriteStoresTheTruncatedValue : Prop :=
  ∀ (s : State) (rn : RegNum) (v : Nat) (rest : List Event), s.inputs = .host (.write rn v) :: rest →
    let writes (r : Regs s.cfg) : Prop := step s = .next { s with inputs := rest, regs := r }
    (s.regs.STATUS.gbusy = false →
      (rn = 4 → writes { s.regs with N := BitVec.ofNat 12 v }) ∧
      (rn = 5 → writes { s.regs with T := BitVec.ofNat 12 v }) ∧
      (rn = 6 → writes { s.regs with RF := BitVec.ofNat 10 v }) ∧
      (rn = 7 → writes { s.regs with RP := BitVec.ofNat 10 v }) ∧
      (rn = 8 → writes { s.regs with P := BitVec.ofNat s.cfg.nmax v })) ∧
    (rn = 3 → writes { s.regs with WDATA := BitVec.ofNat s.cfg.wordBits v }) ∧
    ∀ i < s.cfg.blockWords, rn = BitVec.ofNat 32 (0x20000 + i) →
      ∃ m, writes { s.regs with SRC := m } ∧
        ∀ j, Memory.read m j =
          if j = i then some (BitVec.ofNat s.cfg.wordBits v) else Memory.read s.regs.SRC j
end

