-- ==== Sys2Proof/Laws/Bits.lean ====
section
/-! SUPPORT. What single-bit writes and the mask helpers do to each bit (00_scope.md R9, R10). -/

namespace Sys2Proof.Machine

@[simp] theorem getLsbD_setBit {w : Nat} (v : BitVec w) (i : Nat) (b : Bool) (j : Nat) :
    (setBit v i b).getLsbD j = if j = i ∧ i < w then b else v.getLsbD j := by
  unfold setBit
  rcases lt_or_ge j w with hj | hj
  · rcases eq_or_ne j i with rfl | hne
    · cases b <;> simp [hj]
    · cases b <;> simp [hj, hne]
  · have h1 : ∀ x : BitVec w, x.getLsbD j = false := fun x => BitVec.getLsbD_of_ge x j hj
    rw [h1, h1]
    simp; omega

@[simp] theorem getLsbD_lowBits {w n : Nat} (hn : n ≤ w) (j : Nat) :
    (lowBits w n).getLsbD j = decide (j < n) := by
  simp only [lowBits, BitVec.getLsbD_ofNat, Nat.testBit_two_pow_sub_one]
  by_cases h : j < n <;> simp [h]
  omega

@[simp] theorem getLsbD_highBits {w n : Nat} (hn : n ≤ w) (j : Nat) :
    (highBits w n).getLsbD j = decide (w - n ≤ j ∧ j < w) := by
  simp only [highBits, BitVec.getLsbD_ofNat, Nat.testBit_mul_two_pow, Nat.testBit_two_pow_sub_one]
  by_cases h : j < w <;> by_cases h2 : w - n ≤ j <;> (simp [h, h2]; try omega)

end Sys2Proof.Machine
end

