-- ==== Sys2Proof/Laws/Flags.lean ====
section
/-! SUPPORT. The fields of `STATUS` (10_state.md R29): what each write of a field leaves in every field,
and what recording a fault does (60_exceptions.md R120). -/

namespace Sys2Proof.Machine

/-- Bit `4 + i` of `STATUS` is bit `i` of `CAUSE`. -/
theorem Status.getLsbD_cause (st : Status) (i : Nat) :
    st.cause.getLsbD i = (decide (i < 4) && st.getLsbD (4 + i)) := by
  simp [Status.cause]

/-- A single-bit write outside bits 7:4 leaves `CAUSE`. -/
theorem Status.cause_setBit (st : Status) (i : Nat) (b : Bool) (h : i < 4 ∨ 8 ≤ i) :
    Status.cause (setBit st i b) = st.cause := by
  refine BitVec.eq_of_getLsbD_eq fun j hj => ?_
  simp only [Status.getLsbD_cause, getLsbD_setBit]
  rw [if_neg (by omega)]

theorem Status.getLsbD_setCause (st : Status) (code : BitVec 4) (j : Nat) :
    (st.setCause code).getLsbD j =
      if 4 ≤ j ∧ j < 8 then code.getLsbD (j - 4) else st.getLsbD j := by
  rcases lt_or_ge j 32 with hj | hj
  · have h : ∀ j < 32, (0xF0#32).getLsbD j = decide (4 ≤ j ∧ j < 8) := by decide
    simp only [Status.setCause, BitVec.getLsbD_or, BitVec.getLsbD_and, BitVec.getLsbD_not, hj, h j hj,
      BitVec.getLsbD_shiftLeft, BitVec.getLsbD_setWidth]
    by_cases h1 : 4 ≤ j <;> by_cases h2 : j < 8
    · simp [h1, h2, show ¬ j < 4 by omega, show j - 4 < 32 by omega]
    · simp [h1, h2, BitVec.getLsbD_of_ge code (j - 4) (by omega)]
    · simp [h1, show j < 4 by omega]
    · omega
  · rw [BitVec.getLsbD_of_ge _ j hj, if_neg (by omega), BitVec.getLsbD_of_ge _ j hj]

@[simp] theorem Status.gbusy_setGbusy (st : Status) (b : Bool) : (st.setGbusy b).gbusy = b := by
  simp only [Status.gbusy, Status.setGbusy, getLsbD_setBit]; rfl

@[simp] theorem Status.rcv_setGbusy (st : Status) (b : Bool) : (st.setGbusy b).rcv = st.rcv := by
  simp only [Status.rcv, Status.setGbusy, getLsbD_setBit]; rfl

@[simp] theorem Status.fault_setGbusy (st : Status) (b : Bool) : (st.setGbusy b).fault = st.fault := by
  simp only [Status.fault, Status.setGbusy, getLsbD_setBit]; rfl

@[simp] theorem Status.cause_setGbusy (st : Status) (b : Bool) : (st.setGbusy b).cause = st.cause :=
  Status.cause_setBit st 0 b (by omega)

@[simp] theorem Status.gbusy_setRcv (st : Status) (b : Bool) : (st.setRcv b).gbusy = st.gbusy := by
  simp only [Status.gbusy, Status.setRcv, getLsbD_setBit]; rfl

@[simp] theorem Status.rcv_setRcv (st : Status) (b : Bool) : (st.setRcv b).rcv = b := by
  simp only [Status.rcv, Status.setRcv, getLsbD_setBit]; rfl

@[simp] theorem Status.fault_setRcv (st : Status) (b : Bool) : (st.setRcv b).fault = st.fault := by
  simp only [Status.fault, Status.setRcv, getLsbD_setBit]; rfl

@[simp] theorem Status.cause_setRcv (st : Status) (b : Bool) : (st.setRcv b).cause = st.cause :=
  Status.cause_setBit st 1 b (by omega)

@[simp] theorem Status.gbusy_setFault (st : Status) (b : Bool) : (st.setFault b).gbusy = st.gbusy := by
  simp only [Status.gbusy, Status.setFault, getLsbD_setBit]; rfl

@[simp] theorem Status.rcv_setFault (st : Status) (b : Bool) : (st.setFault b).rcv = st.rcv := by
  simp only [Status.rcv, Status.setFault, getLsbD_setBit]; rfl

@[simp] theorem Status.fault_setFault (st : Status) (b : Bool) : (st.setFault b).fault = b := by
  simp only [Status.fault, Status.setFault, getLsbD_setBit]; rfl

@[simp] theorem Status.cause_setFault (st : Status) (b : Bool) : (st.setFault b).cause = st.cause :=
  Status.cause_setBit st 2 b (by omega)

@[simp] theorem Status.gbusy_setCause (st : Status) (k : BitVec 4) : (st.setCause k).gbusy = st.gbusy := by
  simp only [Status.gbusy, Status.getLsbD_setCause]; rfl

@[simp] theorem Status.rcv_setCause (st : Status) (k : BitVec 4) : (st.setCause k).rcv = st.rcv := by
  simp only [Status.rcv, Status.getLsbD_setCause]; rfl

@[simp] theorem Status.fault_setCause (st : Status) (k : BitVec 4) : (st.setCause k).fault = st.fault := by
  simp only [Status.fault, Status.getLsbD_setCause]; rfl

@[simp] theorem Status.cause_setCause (st : Status) (k : BitVec 4) : (st.setCause k).cause = k := by
  refine BitVec.eq_of_getLsbD_eq fun j hj => ?_
  simp only [Status.getLsbD_cause, Status.getLsbD_setCause, hj, decide_true, Bool.true_and]
  rw [if_pos (by omega), Nat.add_sub_cancel_left]

@[simp] theorem Status.gbusy_recordFault (st : Status) (k : Cause) : (st.recordFault k).gbusy = st.gbusy := by
  unfold Status.recordFault; split <;> simp

@[simp] theorem Status.rcv_recordFault (st : Status) (k : Cause) : (st.recordFault k).rcv = st.rcv := by
  unfold Status.recordFault; split <;> simp

@[simp] theorem Status.fault_recordFault (st : Status) (k : Cause) : (st.recordFault k).fault = true := by
  simp [Status.recordFault]

/-- The first cause stays. -/
@[simp] theorem Status.cause_recordFault (st : Status) (k : Cause) :
    (st.recordFault k).cause = if st.fault then st.cause else causeCode k := by
  unfold Status.recordFault; split <;> simp

/-- The single-bit writes as masks (10_state.md R29). -/
theorem Status.setGbusy_true_eq (st : Status) : st.setGbusy true = st ||| 0x1#32 := rfl

theorem Status.setGbusy_false_eq (st : Status) : st.setGbusy false = st &&& ~~~0x1#32 := rfl

theorem Status.setRcv_true_eq (st : Status) : st.setRcv true = st ||| 0x2#32 := rfl

theorem Status.setRcv_false_eq (st : Status) : st.setRcv false = st &&& ~~~0x2#32 := rfl

theorem Status.setFault_true_eq (st : Status) : st.setFault true = st ||| 0x4#32 := rfl

/-- Which bits are reserved: bit 3 and bits 31:8. -/
theorem Status.reservedZero_iff (st : Status) :
    st.reservedZero ↔ ∀ j < 32, (j = 3 ∨ 8 ≤ j) → st.getLsbD j = false := by
  have h : ∀ j < 32, (0xFFFFFF08#32).getLsbD j = decide (j = 3 ∨ 8 ≤ j) := by decide
  constructor
  · intro hz j hj hr
    have := congrArg (fun v => v.getLsbD j) hz
    simpa [BitVec.getLsbD_and, h j hj, hr] using this
  · intro hz
    refine BitVec.eq_of_getLsbD_eq fun j hj => ?_
    rw [BitVec.getLsbD_and, h j hj]
    by_cases hr : j = 3 ∨ 8 ≤ j <;> simp [hr, hz j hj]

theorem Status.reservedZero_setBit {st : Status} (i : Nat) (b : Bool) (h : st.reservedZero)
    (hi : i ≤ 2) : Status.reservedZero (setBit st i b) := by
  rw [Status.reservedZero_iff] at h ⊢
  intro j hj hr
  rw [getLsbD_setBit, if_neg (by omega), h j hj hr]

theorem Status.reservedZero_recordFault {st : Status} (k : Cause) (h : st.reservedZero) :
    (st.recordFault k).reservedZero := by
  refine Status.reservedZero_setBit 2 true ?_ (by omega)
  split
  · exact h
  · rw [Status.reservedZero_iff] at h ⊢
    intro j hj hr
    rw [Status.getLsbD_setCause, if_neg (by omega), h j hj hr]

theorem causeCode_pos (k : Cause) : causeCode k ≠ 0 := by cases k <;> decide

theorem causeCode_le (k : Cause) : (causeCode k).toNat ≤ 5 := by cases k <;> decide

end Sys2Proof.Machine
end

