-- ==== Sys2Proof/Laws/Lfsr.lean ====
section
/-! SUPPORT. The generator's pure functions, one lemma per loop (42_lfsr_generator.md R100 to R103). -/

namespace Sys2Proof.Machine

theorem advanceRawTimes_eq_iterate (n : Nat) (S : LfsrWord) :
    advanceRawTimes n S = advanceRaw^[n] S := by
  induction n generalizing S with
  | zero => rfl
  | succ n ih => exact ih _

/-- Bit `i + 1` of an advanced register is bit `i`; bit 0 is the new bit (R101). -/
theorem getLsbD_advanceRaw (S : LfsrWord) (i : Nat) (hi : i < 80) :
    (advanceRaw S).getLsbD i = if i = 0 then feedbackBit S else S.getLsbD (i - 1) := by
  simp only [advanceRaw, BitVec.getLsbD_or, BitVec.getLsbD_shiftLeft, BitVec.getLsbD_setWidth,
    BitVec.getLsbD_ofBool, hi, decide_true, Bool.true_and]
  rcases i with _ | i <;> simp

/-- The padding keeps every seed from being 0 (R100). -/
theorem lfsrSeed_ne_zero (c : Config) (n t : BitVec 12) (rf rp : BitVec 10) :
    lfsrSeed c n t rf rp ≠ 0 := by
  intro h
  have := congrArg (fun v => v.getLsbD 0) h
  simp [lfsrSeed, BitVec.getElem_setWidth] at this

/-- What the filter loop answers: some number of failed checks, then a successful one, then one more
advance (R102). -/
theorem filterLoop_eq_some {fuel : Nat} {S S' : LfsrWord} (h : filterLoop fuel S = some S') :
    ∃ m < fuel, (∀ j < m, (advanceRaw^[j + 1] S).getLsbD 79 = false) ∧
      (advanceRaw^[m + 1] S).getLsbD 79 = true ∧ S' = advanceRaw^[m + 2] S := by
  induction fuel generalizing S with
  | zero => simp [filterLoop] at h
  | succ fuel ih =>
    simp only [filterLoop] at h
    split_ifs at h with hb
    · exact ⟨0, by omega, by simp, by simpa using hb, by simpa using h.symm⟩
    · obtain ⟨m, hm, h1, h2, h3⟩ := ih h
      refine ⟨m + 1, by omega, fun j hj => ?_, h2, h3⟩
      rcases j with _ | j
      · simpa using hb
      · exact h1 j (by omega)

/-- A candidate of `n` bits appended to `acc` is below `(acc + 1) × 2^n`. -/
theorem candidateFrom_lt {n acc : Nat} {S S' : LfsrWord} {k : Nat}
    (h : candidateFrom n acc S = some (S', k)) : k < (acc + 1) * 2 ^ n := by
  induction n generalizing acc S with
  | zero =>
    simp only [candidateFrom, Option.some.injEq, Prod.mk.injEq] at h
    omega
  | succ n ih =>
    simp only [candidateFrom] at h
    split at h
    · simp at h
    · have := ih h
      refine this.trans_le ?_
      rw [pow_succ', ← mul_assoc]
      refine Nat.mul_le_mul_right _ ?_
      have := Bool.toNat_le (BitVec.getLsbD ‹LfsrWord› 79)
      omega

/-- What the rejection loop answers is below `p` and fits `n` bits (R103). -/
theorem rejectionLoop_lt {fuel : Nat} {S S' : LfsrWord} {n p k : Nat}
    (h : rejectionLoop fuel S n p = some (S', k)) : k < p ∧ k < 2 ^ n := by
  induction fuel generalizing S with
  | zero => simp [rejectionLoop] at h
  | succ fuel ih =>
    simp only [rejectionLoop] at h
    split at h
    · simp at h
    · rename_i S'' k' hc
      split_ifs at h with hk
      · simp only [Option.some.injEq, Prod.mk.injEq] at h
        obtain ⟨_, rfl⟩ := h
        exact ⟨hk, by simpa using candidateFrom_lt hc⟩
      · exact ih h

theorem nextConstant_lt {S S' : LfsrWord} {n p k : Nat} (h : nextConstant S n p = some (S', k)) :
    k < p ∧ k < 2 ^ n := rejectionLoop_lt h

end Sys2Proof.Machine
end

