-- ==== Sys2Proof/Laws/Memory.lean ====
section
/-! SUPPORT. The memory arrays: read after write, and every write keeps the canonical form. -/

namespace Sys2Proof.Machine

@[simp] theorem Memory.read_nil {w : Nat} (i : Nat) : Memory.read ([] : Memory w) i = none := rfl

theorem Memory.wf_cons {w : Nat} (j : Nat) (u : BitVec w) (m : Memory w) :
    Memory.wf ((j, u) :: m) = true ↔ (∀ e ∈ m.head?, j < e.1) ∧ Memory.wf m = true := by
  cases m with
  | nil => simp [Memory.wf]
  | cons e m => simp [Memory.wf]

/-- Read after write: the written word, and every other word as before. -/
@[simp] theorem Memory.read_write {w : Nat} (m : Memory w) (i : Nat) (v : BitVec w) (j : Nat) :
    Memory.read (Memory.write m i v) j = if j = i then some v else Memory.read m j := by
  induction m with
  | nil => simp only [Memory.write, Memory.read]; split <;> split <;> first | rfl | omega
  | cons e m ih =>
    obtain ⟨k, u⟩ := e
    simp only [Memory.write]
    split_ifs with h1 h2 h3 <;> simp only [Memory.read, ih] <;> split_ifs <;> first | rfl | omega

theorem Memory.head_write {w : Nat} (m : Memory w) (i : Nat) (v : BitVec w) (n : Nat)
    (hm : ∀ e ∈ m.head?, n < e.1) (hi : n < i) : ∀ e ∈ (Memory.write m i v).head?, n < e.1 := by
  cases m with
  | nil => simpa [Memory.write] using hi
  | cons e m =>
    obtain ⟨k, u⟩ := e
    simp only [Memory.write]
    split_ifs <;> simp_all

/-- A write keeps the canonical form. -/
theorem Memory.wf_write {w : Nat} (m : Memory w) (i : Nat) (v : BitVec w) (h : Memory.wf m = true) :
    Memory.wf (Memory.write m i v) = true := by
  induction m with
  | nil => rfl
  | cons e m ih =>
    obtain ⟨k, u⟩ := e
    rw [Memory.wf_cons] at h
    simp only [Memory.write]
    split_ifs with h1 h2
    · rw [Memory.wf_cons, Memory.wf_cons]; exact ⟨by simpa using h1, h⟩
    · rw [Memory.wf_cons]; exact ⟨h2 ▸ h.1, h.2⟩
    · rw [Memory.wf_cons]
      exact ⟨Memory.head_write m i v k h.1 (by omega), ih h.2⟩

/-- What a write lists is the written word or was listed before. -/
theorem Memory.mem_write {w : Nat} (m : Memory w) (i : Nat) (v : BitVec w) {e : Nat × BitVec w}
    (h : e ∈ Memory.write m i v) : e = (i, v) ∨ e ∈ m := by
  induction m with
  | nil => simpa [Memory.write] using h
  | cons x m ih =>
    simp only [Memory.write] at h
    split_ifs at h <;> simp only [List.mem_cons] at h ⊢ <;> tauto

/-- A write inside the array keeps every listed index inside it. -/
theorem Memory.below_write {w : Nat} (m : Memory w) (i : Nat) (v : BitVec w) (n : Nat)
    (h : Memory.below m n = true) (hi : i < n) : Memory.below (Memory.write m i v) n = true := by
  simp only [Memory.below, List.all_eq_true, decide_eq_true_eq] at h ⊢
  intro e he
  rcases Memory.mem_write m i v he with rfl | he
  · exact hi
  · exact h e he

end Sys2Proof.Machine
end

