-- ==== Sys2Proof/Laws/State.lean ====
section
/-! SUPPORT. The fields of State and Regs under each named update: true by rfl, for simp. Updates
written `{ r with … }` need none, simp reads the field off. -/

namespace Sys2Proof.Machine

/-! ## `State.setRegs` -/

@[simp] theorem setRegs_cfg (s : State) (r : Regs s.cfg) : (s.setRegs r).cfg = s.cfg := rfl

@[simp] theorem setRegs_inputs (s : State) (r : Regs s.cfg) : (s.setRegs r).inputs = s.inputs := rfl

@[simp] theorem setRegs_rdata (s : State) (r : Regs s.cfg) : (s.setRegs r).rdata = s.rdata := rfl

@[simp] theorem setRegs_regs (s : State) (r : Regs s.cfg) : (s.setRegs r).regs = r := rfl

@[simp] theorem setRegs_self (s : State) : s.setRegs s.regs = s := rfl

@[simp] theorem setRegs_setRegs (s : State) (r r' : Regs s.cfg) : (s.setRegs r).setRegs r' = s.setRegs r' := rfl

/-! ## `raiseFault`: only `STATUS` changes (60_exceptions.md R120) -/

@[simp] theorem raiseFault_B {c : Config} (k : Cause) (r : Regs c) : (raiseFault k r).B = r.B := rfl

@[simp] theorem raiseFault_SEEN {c : Config} (k : Cause) (r : Regs c) : (raiseFault k r).SEEN = r.SEEN := rfl

@[simp] theorem raiseFault_SRC {c : Config} (k : Cause) (r : Regs c) : (raiseFault k r).SRC = r.SRC := rfl

@[simp] theorem raiseFault_WDATA {c : Config} (k : Cause) (r : Regs c) : (raiseFault k r).WDATA = r.WDATA := rfl

@[simp] theorem raiseFault_N {c : Config} (k : Cause) (r : Regs c) : (raiseFault k r).N = r.N := rfl

@[simp] theorem raiseFault_T {c : Config} (k : Cause) (r : Regs c) : (raiseFault k r).T = r.T := rfl

@[simp] theorem raiseFault_RF {c : Config} (k : Cause) (r : Regs c) : (raiseFault k r).RF = r.RF := rfl

@[simp] theorem raiseFault_RP {c : Config} (k : Cause) (r : Regs c) : (raiseFault k r).RP = r.RP := rfl

@[simp] theorem raiseFault_P {c : Config} (k : Cause) (r : Regs c) : (raiseFault k r).P = r.P := rfl

@[simp] theorem raiseFault_LFSR {c : Config} (k : Cause) (r : Regs c) : (raiseFault k r).LFSR = r.LFSR := rfl

@[simp] theorem raiseFault_RC {c : Config} (k : Cause) (r : Regs c) : (raiseFault k r).RC = r.RC := rfl

@[simp] theorem raiseFault_IDX {c : Config} (k : Cause) (r : Regs c) : (raiseFault k r).IDX = r.IDX := rfl

@[simp] theorem raiseFault_STATUS {c : Config} (k : Cause) (r : Regs c) : (raiseFault k r).STATUS = r.STATUS.recordFault k := rfl

@[simp] theorem raiseFault_GOP {c : Config} (k : Cause) (r : Regs c) : (raiseFault k r).GOP = r.GOP := rfl

@[simp] theorem raiseFault_draws {c : Config} (k : Cause) (r : Regs c) : (raiseFault k r).draws = r.draws := rfl

@[simp] theorem raiseFault_epoch {c : Config} (k : Cause) (r : Regs c) : (raiseFault k r).epoch = r.epoch := rfl

/-! ## `Regs.reset` (10_state.md R33) -/

@[simp] theorem reset_B (c : Config) (d e : Nat) : (Regs.reset c d e).B = Vector.replicate c.blockWords 0 := rfl

@[simp] theorem reset_SEEN (c : Config) (d e : Nat) : (Regs.reset c d e).SEEN = 0 := rfl

@[simp] theorem reset_SRC (c : Config) (d e : Nat) : (Regs.reset c d e).SRC = [] := rfl

@[simp] theorem reset_WDATA (c : Config) (d e : Nat) : (Regs.reset c d e).WDATA = 0 := rfl

@[simp] theorem reset_N (c : Config) (d e : Nat) : (Regs.reset c d e).N = 0 := rfl

@[simp] theorem reset_T (c : Config) (d e : Nat) : (Regs.reset c d e).T = 0 := rfl

@[simp] theorem reset_RF (c : Config) (d e : Nat) : (Regs.reset c d e).RF = 0 := rfl

@[simp] theorem reset_RP (c : Config) (d e : Nat) : (Regs.reset c d e).RP = 0 := rfl

@[simp] theorem reset_P (c : Config) (d e : Nat) : (Regs.reset c d e).P = 0 := rfl

@[simp] theorem reset_LFSR (c : Config) (d e : Nat) : (Regs.reset c d e).LFSR = 0 := rfl

@[simp] theorem reset_RC (c : Config) (d e : Nat) : (Regs.reset c d e).RC = [] := rfl

@[simp] theorem reset_IDX (c : Config) (d e : Nat) : (Regs.reset c d e).IDX = 0 := rfl

@[simp] theorem reset_STATUS (c : Config) (d e : Nat) : (Regs.reset c d e).STATUS = 0 := rfl

@[simp] theorem reset_GOP (c : Config) (d e : Nat) : (Regs.reset c d e).GOP = none := rfl

@[simp] theorem reset_draws (c : Config) (d e : Nat) : (Regs.reset c d e).draws = d := rfl

@[simp] theorem reset_epoch (c : Config) (d e : Nat) : (Regs.reset c d e).epoch = e := rfl

/-! ## The free-value reads of `SRC` and `RC` -/

@[simp] theorem srcWord_of_written {c : Config} {r : Regs c} {i : Nat} {v : BitVec c.wordBits}
    (h : Memory.read r.SRC i = some v) : r.srcWord i = v := by simp [Regs.srcWord, h]

@[simp] theorem rcEntry_of_written {c : Config} {r : Regs c} {i : Nat} {v : BitVec c.nmax}
    (h : Memory.read r.RC i = some v) : r.rcEntry i = v := by simp [Regs.rcEntry, h]

theorem srcWord_congr {c : Config} {r r' : Regs c} (hs : r.SRC = r'.SRC) (he : r.epoch = r'.epoch)
    (i : Nat) : r.srcWord i = r'.srcWord i := by simp [Regs.srcWord, hs, he]

end Sys2Proof.Machine
end

