-- ==== Sys2Proof/Laws/Generator.lean ====
section
/-! SUPPORT. What issuing and completing a generator command can do, said once
(42_lfsr_generator.md R104 to R109). -/

namespace Sys2Proof.Machine

/-- Issue: busy, unusable parameters, or accepted (R104). -/
theorem issue_cases {c : Config} (g : GenOp) (r : Regs c) :
    (r.STATUS.gbusy = true ∧ issue g r = raiseFault .genBusy r) ∨
    (r.STATUS.gbusy = false ∧ paramsUsable g r = false ∧ issue g r = raiseFault .genParam r) ∨
    (r.STATUS.gbusy = false ∧ paramsUsable g r = true ∧
      issue g r = { r with
        STATUS := if clearsRcv g then (r.STATUS.setGbusy true).setRcv false else r.STATUS.setGbusy true,
        GOP := some g }) := by
  unfold issue
  cases hb : r.STATUS.gbusy <;> cases hp : paramsUsable g r <;> simp

/-- Issue can change `STATUS` and `GOP` only. -/
theorem issue_frame {c : Config} (g : GenOp) (r : Regs c) :
    ∃ st op, issue g r = { r with STATUS := st, GOP := op } := by
  rcases issue_cases g r with ⟨_, h⟩ | ⟨_, _, h⟩ | ⟨_, _, h⟩ <;> exact ⟨_, _, h⟩

/-- `IDX <- IDX + 1`, or the free value where the sum does not fit. -/
theorem stepIdx_cases {c : Config} (r : Regs c) :
    (r.IDX.toNat + 1 < 2 ^ 23 ∧ stepIdx r = { r with IDX := r.IDX + 1 }) ∨
    (r.IDX.toNat + 1 = 2 ^ 23 ∧
      stepIdx r = { r with IDX := Config.freeBits 23 r.draws, draws := r.draws + 1 }) := by
  have := r.IDX.isLt
  unfold stepIdx
  split_ifs with h
  · exact .inl ⟨h, rfl⟩
  · exact .inr ⟨by omega, rfl⟩

/-- The table loop writes only entries `idx .. idx + count - 1`, each below `p` and `2^n`. -/
theorem tableLoop_read {w : Nat} {count idx : Nat} {S S' : LfsrWord} {n p : Nat} {rc rc' : Memory w}
    (h : tableLoop count idx S n p rc = some (S', rc')) :
    (∀ j, (j < idx ∨ idx + count ≤ j) → Memory.read rc' j = Memory.read rc j) ∧
    (∀ j, idx ≤ j → j < idx + count →
      ∃ k, Memory.read rc' j = some (BitVec.ofNat w k) ∧ k < p ∧ k < 2 ^ n) := by
  induction count generalizing idx S rc with
  | zero =>
    simp only [tableLoop, Option.some.injEq, Prod.mk.injEq] at h
    exact ⟨fun j _ => by rw [h.2], fun j _ _ => by omega⟩
  | succ count ih =>
    simp only [tableLoop] at h
    split at h
    · simp at h
    · rename_i S'' k hk
      obtain ⟨h1, h2⟩ := ih h
      refine ⟨fun j hj => ?_, fun j hj1 hj2 => ?_⟩
      · rw [h1 j (by omega), Memory.read_write, if_neg (by omega)]
      · rcases eq_or_ne j idx with rfl | hne
        · exact ⟨k, by rw [h1 j (by omega), Memory.read_write, if_pos rfl], nextConstant_lt hk⟩
        · exact h2 j (by omega) (by omega)

/-- The table loop keeps the canonical form and, writing inside the array, stays in it. -/
theorem tableLoop_wf {w : Nat} {count idx : Nat} {S S' : LfsrWord} {n p : Nat} {rc rc' : Memory w}
    (h : tableLoop count idx S n p rc = some (S', rc')) (hw : Memory.wf rc = true) (d : Nat)
    (hb : Memory.below rc d = true) (hd : idx + count ≤ d) :
    Memory.wf rc' = true ∧ Memory.below rc' d = true := by
  induction count generalizing idx S rc with
  | zero =>
    simp only [tableLoop, Option.some.injEq, Prod.mk.injEq] at h
    exact h.2 ▸ ⟨hw, hb⟩
  | succ count ih =>
    simp only [tableLoop] at h
    split at h
    · simp at h
    · exact ih h (Memory.wf_write _ _ _ hw) (Memory.below_write _ _ _ _ hb (by omega)) (by omega)

/-- An effect can change `LFSR`, `RC`, `IDX`, the model's draw counter and, for `GENT`, set `RCV`. -/
theorem effect_frame {c : Config} {g : GenOp} {r r' : Regs c} (h : effect g r = some r') :
    ∃ L rc idx d, r' = { r with
      LFSR := L, RC := rc, IDX := idx, draws := d,
      STATUS := if g = .gent then r.STATUS.setRcv true else r.STATUS } := by
  cases g with
  | linit => exact ⟨_, _, _, _, (Option.some.inj h).symm⟩
  | advr => exact ⟨_, _, _, _, (Option.some.inj h).symm⟩
  | advf =>
    simp only [effect, advfEffect] at h
    split at h
    · simp at h
    · exact ⟨_, _, _, _, (Option.some.inj h).symm⟩
  | genc =>
    simp only [effect, gencEffect] at h
    split at h
    · simp at h
    · rename_i S k _
      rw [← Option.some.inj h]
      rcases stepIdx_cases { r with LFSR := S, RC := Memory.write r.RC r.IDX.toNat (BitVec.ofNat c.nmax k) }
        with ⟨_, e⟩ | ⟨_, e⟩ <;> exact ⟨_, _, _, _, e⟩
  | gent =>
    simp only [effect, gentEffect] at h
    split at h
    · simp at h
    · exact ⟨_, _, _, _, (Option.some.inj h).symm⟩

/-- Completion: enabled, with the whole effect and `GBUSY` cleared; or nothing happens (R104). -/
theorem complete_cases {c : Config} (r : Regs c) :
    (∃ g r', r.STATUS.gbusy = true ∧ r.GOP = some g ∧ effect g r = some r' ∧
      complete r = { r' with STATUS := r'.STATUS.setGbusy false, GOP := none }) ∨
    ((r.STATUS.gbusy = false ∨ r.GOP = none ∨ ∃ g, r.GOP = some g ∧ effect g r = none) ∧
      complete r = r) := by
  unfold complete
  split
  · rename_i g hb hg
    split
    · rename_i he; exact .inr ⟨.inr (.inr ⟨g, hg, he⟩), rfl⟩
    · rename_i r' he; exact .inl ⟨g, r', hb, hg, he, rfl⟩
  · rename_i hg; exact .inr ⟨.inr (.inl hg), rfl⟩
  · rename_i hb _; exact .inr ⟨.inl hb, rfl⟩
  · rename_i hb _; exact .inr ⟨.inl hb, rfl⟩

/-- An enabled completion, computed. -/
theorem complete_of_effect {c : Config} {r r' : Regs c} {g : GenOp} (hb : r.STATUS.gbusy = true)
    (hg : r.GOP = some g) (he : effect g r = some r') :
    complete r = { r' with STATUS := r'.STATUS.setGbusy false, GOP := none } := by
  unfold complete
  rw [hb, hg]
  simp only [he]

/-- A completion that is not enabled because its effect is undefined. -/
theorem complete_of_undefined {c : Config} {r : Regs c} {g : GenOp} (hg : r.GOP = some g)
    (he : effect g r = none) : complete r = r := by
  rcases complete_cases r with ⟨g', r', _, hg', he', _⟩ | ⟨_, h⟩
  · rw [hg] at hg'; cases hg'; rw [he] at he'; cases he'
  · exact h

end Sys2Proof.Machine
end

