-- ==== Sys2Proof/Laws/Stream.lean ====
section
/-! SUPPORT. The bit map of 20_memory.md R47: it stays in the word, and no two stream offsets share a
register bit. -/

namespace Sys2Proof.Machine

/-- A unit index and a unit's last bit stay in the word, where units fill the word. -/
theorem unit_end_le {W U q : Nat} (hd : U ∣ W) (hq : q < W) : (q / U + 1) * U ≤ W := by
  obtain ⟨m, rfl⟩ := hd
  have : q / U < m := Nat.div_lt_of_lt_mul hq
  calc (q / U + 1) * U ≤ m * U := Nat.mul_le_mul_right _ this
    _ = U * m := Nat.mul_comm _ _

theorem phys_lt {W U : Nat} (hU : 1 ≤ U) (hd : U ∣ W) (cv : Conv) {q : Nat} (hq : q < W) :
    phys W U cv q < W := by
  have h := unit_end_le hd hq
  have hm : q % U < U := Nat.mod_lt _ hU
  rw [Nat.add_mul, Nat.one_mul] at h
  cases cv <;> simp only [phys, Nat.add_mul, Nat.one_mul] <;> omega

/-- The offset of a register bit under each convention is given by the same formula. -/
theorem phys_phys {W U : Nat} (hU : 1 ≤ U) (hd : U ∣ W) (cv : Conv) {q : Nat} (hq : q < W) :
    phys W U cv (phys W U cv q) = q := by
  have h := unit_end_le hd hq
  have hm : q % U < U := Nat.mod_lt _ hU
  have hdm : U * (q / U) + q % U = q := Nat.div_add_mod q U
  cases cv with
  | bb => simp only [phys]; omega
  | ll => rfl
  | lb =>
    have e1 : (q / U * U + (U - 1 - q % U)) / U = q / U := by
      rw [Nat.mul_comm, Nat.mul_add_div hU, Nat.div_eq_of_lt (by omega : U - 1 - q % U < U), Nat.add_zero]
    have e2 : (q / U * U + (U - 1 - q % U)) % U = U - 1 - q % U := by
      rw [Nat.mul_comm, Nat.mul_add_mod, Nat.mod_eq_of_lt (by omega)]
    simp only [phys, e1, e2]
    rw [Nat.mul_comm (q / U) U]; omega
  | bl =>
    obtain ⟨m, rfl⟩ := hd
    have hlt : q / U < m := Nat.div_lt_of_lt_mul hq
    have e0 : U * m - (q / U + 1) * U = U * (m - (q / U + 1)) := by
      rw [Nat.mul_sub, Nat.mul_comm (q / U + 1) U]
    have e1 : (U * (m - (q / U + 1)) + q % U) / U = m - (q / U + 1) := by
      rw [Nat.mul_add_div hU, Nat.div_eq_of_lt hm, Nat.add_zero]
    have e2 : (U * (m - (q / U + 1)) + q % U) % U = q % U := by
      rw [Nat.mul_add_mod, Nat.mod_eq_of_lt hm]
    simp only [phys, e0, e1, e2]
    have e3 : U * m - (m - (q / U + 1) + 1) * U = U * (q / U) := by
      have e4 : m - (q / U + 1) + 1 = m - q / U := by
        generalize q / U = u at hlt
        omega
      rw [e4, Nat.mul_comm (m - q / U) U, ← Nat.mul_sub, Nat.sub_sub_self hlt.le]
    rw [e3, hdm]

theorem phys_inj {W U : Nat} (hU : 1 ≤ U) (hd : U ∣ W) (cv : Conv) {p q : Nat} (hp : p < W) (hq : q < W)
    (h : phys W U cv p = phys W U cv q) : p = q := by
  rw [← phys_phys hU hd cv hp, h, phys_phys hU hd cv hq]

/-- Two words with the same stream bits are the same word. -/
theorem eq_of_sbit_eq {c : Config} (cv : Conv) {v w : BitVec c.wordBits}
    (h : ∀ q < c.wordBits, sbit c cv v q = sbit c cv w q) : v = w := by
  obtain ⟨_, hU, _, hd, _⟩ := c.wf
  refine BitVec.eq_of_getLsbD_eq fun i hi => ?_
  have := h _ (phys_lt hU hd cv hi)
  rwa [sbit, sbit, phys_phys hU hd cv hi] at this

@[simp] theorem sbit_zero (c : Config) (cv : Conv) (q : Nat) : sbit c cv 0 q = false := by
  simp [sbit]

@[simp] theorem blockWord_set_self {c : Config} (X : Vector (BitVec c.wordBits) c.blockWords) {i : Nat}
    (hi : i < c.blockWords) (v : BitVec c.wordBits) : blockWord (X.setIfInBounds i v) i = v := by
  simp [blockWord, hi]

@[simp] theorem blockWord_set_ne {c : Config} (X : Vector (BitVec c.wordBits) c.blockWords) {i j : Nat}
    (h : i ≠ j) (v : BitVec c.wordBits) : blockWord (X.setIfInBounds i v) j = blockWord X j := by
  simp [blockWord, h]

@[simp] theorem blockWord_replicate_zero (c : Config) (i : Nat) :
    blockWord (Vector.replicate c.blockWords (0 : BitVec c.wordBits)) i = 0 := by
  simp only [blockWord, Vector.getElem?_replicate]
  split <;> rfl

end Sys2Proof.Machine
end

