-- ==== Sys2Proof/Laws/Injector.lean ====
section
/-! SUPPORT. What injecting a word and a block can do, said once (40_word_injector.md R80,
41_block_injector.md R90): the stream bits of the words written, the words, the cursor, the frame. -/

namespace Sys2Proof.Machine

theorem sbit_setBit {c : Config} (cv : Conv) (v : BitVec c.wordBits) {p q : Nat} (hp : p < c.wordBits)
    (hq : q < c.wordBits) (b : Bool) :
    sbit c cv (setBit v (phys c.wordBits c.unitBits cv p) b) q = if q = p then b else sbit c cv v q := by
  obtain ⟨_, hU, _, hd, _⟩ := c.wf
  simp only [sbit, getLsbD_setBit, phys_lt hU hd cv hp, and_true]
  exact if_congr ⟨phys_inj hU hd cv hq hp, fun h => by rw [h]⟩ rfl rfl

/-- `keepStream` keeps the first `o` stream bits and clears the rest. -/
theorem sbit_keepStream {c : Config} (cv : Conv) (old : BitVec c.wordBits) {o q : Nat}
    (ho : o ≤ c.wordBits) (hq : q < c.wordBits) :
    sbit c cv (keepStream c cv old o) q = (decide (q < o) && sbit c cv old q) := by
  unfold keepStream
  induction o with
  | zero => exact sbit_zero c cv q
  | succ o ih =>
    rw [List.range_succ, List.foldl_append, List.foldl_cons, List.foldl_nil,
      sbit_setBit cv _ (by omega) hq, ih (by omega)]
    split_ifs with h
    · subst h; simp
    · exact congrArg (· && sbit c cv old q) (decide_eq_decide.mpr (by omega))

/-- `placeHere` puts stream bits `0 .. k-1` of `w` at offsets `o ..` and leaves the others. -/
theorem sbit_placeHere {c : Config} (cv : Conv) (a w : BitVec c.wordBits) (o k : Nat) {q : Nat}
    (hq : q < c.wordBits) :
    sbit c cv (placeHere c cv a w o k) q =
      if o ≤ q ∧ q < o + k then sbit c cv w (q - o) else sbit c cv a q := by
  unfold placeHere
  induction k with
  | zero => rw [List.range_zero, List.foldl_nil, if_neg (by omega)]
  | succ k ih =>
    rw [List.range_succ, List.foldl_append, List.foldl_cons, List.foldl_nil]
    split_ifs at ih ⊢ with h1 h2 h3 h4 <;> first
      | exact ih
      | omega
      | (rw [sbit_setBit cv _ (by assumption) hq, ih, if_neg (by omega)])
      | (rw [sbit_setBit cv _ (by assumption) hq, if_pos (by omega)]; congr 1; omega)

/-- `placeNext` holds what spills, from offset 0 on, and 0 elsewhere. -/
theorem sbit_placeNext {c : Config} (cv : Conv) (w : BitVec c.wordBits) {o k : Nat} {q : Nat}
    (hk : o + k ≤ 2 * c.wordBits) (ho : o ≤ c.wordBits) (hq : q < c.wordBits) :
    sbit c cv (placeNext c cv w o k) q =
      (decide (q + c.wordBits < o + k) && sbit c cv w (q + c.wordBits - o)) := by
  unfold placeNext
  induction k with
  | zero => rw [List.range_zero, List.foldl_nil, sbit_zero]; simp; omega
  | succ k ih =>
    have ih := ih (by omega)
    rw [List.range_succ, List.foldl_append, List.foldl_cons, List.foldl_nil]
    by_cases h1 : o + k < c.wordBits
    · rw [if_pos h1, ih, decide_eq_false (by omega), decide_eq_false (by omega)]
    · rw [if_neg h1, sbit_setBit cv _ (by omega) hq, ih]
      by_cases h2 : q = o + k - c.wordBits
      · rw [if_pos h2, decide_eq_true (by omega), Bool.true_and, show q + c.wordBits - o = k by omega]
      · rw [if_neg h2]
        exact congrArg (· && sbit c cv w _) (decide_eq_decide.mpr (by omega))

/-- A saturating injection changes nothing (R80, R127). -/
theorem injectWord_of_full {c : Config} (cv : Conv) (w : BitVec c.wordBits) (k : Nat) (r : Regs c)
    (h : c.blockBits < r.SEEN.toNat + k ∨ r.SEEN.toNat = c.blockBits) : injectWord cv w k r = r := by
  unfold injectWord
  rcases h with h | h <;> simp [h]

/-- An injection that fits rewrites the cursor's word, on a spill the next one, and the cursor; words
elsewhere and all other registers stay (R80). -/
theorem injectWord_of_fits {c : Config} (cv : Conv) (w : BitVec c.wordBits) (k : Nat) (r : Regs c)
    (h1 : r.SEEN.toNat + k ≤ c.blockBits) (h2 : r.SEEN.toNat < c.blockBits) :
    ∃ B', injectWord cv w k r =
        { r with B := B', SEEN := BitVec.ofNat 16 (r.SEEN.toNat + k) } ∧
      ∀ j < c.blockWords, blockWord B' j =
        if j = r.SEEN.toNat / c.wordBits then
          placeHere c cv (keepStream c cv (blockWord r.B j) (r.SEEN.toNat % c.wordBits)) w
            (r.SEEN.toNat % c.wordBits) k
        else if j = r.SEEN.toNat / c.wordBits + 1 ∧ r.SEEN.toNat % c.wordBits + k > c.wordBits then
          placeNext c cv w (r.SEEN.toNat % c.wordBits) k
        else blockWord r.B j := by
  refine ⟨_, by rw [injectWord, if_neg (by omega), if_neg (by omega)], fun j hj => ?_⟩
  rcases eq_or_ne j (r.SEEN.toNat / c.wordBits) with rfl | hne
  · rw [if_pos rfl]
    split_ifs with h3
    · rw [blockWord_set_ne _ (by omega), blockWord_set_self _ hj]
    · rw [blockWord_set_self _ hj]
  · rw [if_neg hne]
    split_ifs with h3 h4 h4
    · obtain ⟨rfl, _⟩ := h4; rw [blockWord_set_self _ hj]
    · rw [blockWord_set_ne _ (fun e => h4 ⟨e.symm, h3⟩), blockWord_set_ne _ hne.symm]
    · exact absurd h4.2 h3
    · rw [blockWord_set_ne _ hne.symm]

/-- Injecting a word can change `B` and `SEEN` only. -/
theorem injectWord_frame {c : Config} (cv : Conv) (w : BitVec c.wordBits) (k : Nat) (r : Regs c) :
    ∃ B' n, injectWord cv w k r = { r with B := B', SEEN := n } := by
  unfold injectWord
  dsimp only
  split_ifs <;> exact ⟨_, _, rfl⟩

/-- The cursor after injecting a word. -/
theorem injectWord_seen {c : Config} (cv : Conv) (w : BitVec c.wordBits) (k : Nat) (r : Regs c) :
    (injectWord cv w k r).SEEN.toNat =
      if r.SEEN.toNat + k ≤ c.blockBits then r.SEEN.toNat + k else r.SEEN.toNat := by
  obtain ⟨_, _, _, _, _, hB, _⟩ := c.wf
  unfold injectWord
  dsimp only
  split_ifs <;> first | omega | (rw [BitVec.toNat_ofNat, Nat.mod_eq_of_lt (by omega)])

@[simp] theorem injectWord_SRC {c : Config} (cv : Conv) (w : BitVec c.wordBits) (k : Nat) (r : Regs c) :
    (injectWord cv w k r).SRC = r.SRC := by
  obtain ⟨_, _, h⟩ := injectWord_frame cv w k r; rw [h]

@[simp] theorem injectWord_epoch {c : Config} (cv : Conv) (w : BitVec c.wordBits) (k : Nat) (r : Regs c) :
    (injectWord cv w k r).epoch = r.epoch := by
  obtain ⟨_, _, h⟩ := injectWord_frame cv w k r; rw [h]

@[simp] theorem srcWord_injectWord {c : Config} (cv : Conv) (w : BitVec c.wordBits) (k : Nat) (r : Regs c)
    (i : Nat) : (injectWord cv w k r).srcWord i = r.srcWord i :=
  srcWord_congr (injectWord_SRC ..) (injectWord_epoch ..) i

/-- One more whole word (R90). -/
theorem injectWholeWords_succ {c : Config} (cv : Conv) (n : Nat) (r : Regs c) :
    injectWholeWords cv (n + 1) r =
      injectWord cv ((injectWholeWords cv n r).srcWord n) c.wordBits (injectWholeWords cv n r) := by
  simp [injectWholeWords, List.range_succ]

theorem injectWholeWords_frame {c : Config} (cv : Conv) (n : Nat) (r : Regs c) :
    ∃ B' k, injectWholeWords cv n r = { r with B := B', SEEN := k } := by
  induction n with
  | zero => exact ⟨_, _, rfl⟩
  | succ n ih =>
    rw [injectWholeWords_succ]
    obtain ⟨B', k, h⟩ := ih
    obtain ⟨B'', k', h'⟩ := injectWord_frame cv ((injectWholeWords cv n r).srcWord n) c.wordBits
      (injectWholeWords cv n r)
    exact ⟨B'', k', by rw [h', h]⟩

@[simp] theorem srcWord_injectWholeWords {c : Config} (cv : Conv) (n : Nat) (r : Regs c) (i : Nat) :
    (injectWholeWords cv n r).srcWord i = r.srcWord i := by
  obtain ⟨_, _, h⟩ := injectWholeWords_frame cv n r
  exact srcWord_congr (by rw [h]) (by rw [h]) i

/-- The cursor after the whole words of a block injection that fits. -/
theorem injectWholeWords_seen {c : Config} (cv : Conv) (n : Nat) (r : Regs c)
    (h : r.SEEN.toNat + n * c.wordBits ≤ c.blockBits) :
    (injectWholeWords cv n r).SEEN.toNat = r.SEEN.toNat + n * c.wordBits := by
  induction n with
  | zero => simp [injectWholeWords]
  | succ n ih =>
    rw [Nat.add_mul, Nat.one_mul] at h ⊢
    rw [injectWholeWords_succ, injectWord_seen, ih (by omega), if_pos (by omega)]
    omega

/-- Injecting a block can change `B` and `SEEN` only (R90). -/
theorem injectBlock_frame {c : Config} (cv : Conv) (k : Nat) (r : Regs c) :
    ∃ B' n, injectBlock cv k r = { r with B := B', SEEN := n } := by
  unfold injectBlock
  dsimp only
  split_ifs
  · exact ⟨_, _, rfl⟩
  · obtain ⟨B', n, h⟩ := injectWholeWords_frame cv (k / c.wordBits) r
    obtain ⟨B'', n', h'⟩ := injectWord_frame cv
      ((injectWholeWords cv (k / c.wordBits) r).srcWord (k / c.wordBits)) (k % c.wordBits)
      (injectWholeWords cv (k / c.wordBits) r)
    exact ⟨B'', n', by rw [h', h]⟩
  · exact injectWholeWords_frame ..

/-- The cursor after injecting a block (R90 (b)). -/
theorem injectBlock_seen {c : Config} (cv : Conv) (k : Nat) (r : Regs c) :
    (injectBlock cv k r).SEEN.toNat =
      if k + r.SEEN.toNat ≤ c.blockBits then r.SEEN.toNat + k else r.SEEN.toNat := by
  have hdm := Nat.div_add_mod k c.wordBits
  rw [Nat.mul_comm] at hdm
  unfold injectBlock
  dsimp only
  by_cases hg : k + r.SEEN.toNat ≤ c.blockBits
  · rw [if_neg (by omega), if_pos hg]
    have hs := injectWholeWords_seen cv (k / c.wordBits) r (by omega)
    split_ifs with h
    · rw [injectWord_seen, hs, if_pos (by omega)]; omega
    · rw [hs]; omega
  · rw [if_pos (by omega), if_neg hg]

/-- An `INJW` faults and changes only `STATUS`, or injects `WDATA` (R81 to R84). -/
theorem injwCommand_cases {c : Config} (cv : Conv) (k : Nat) (r : Regs c) :
    (c.wordBits < k ∧ injwCommand cv k r = raiseFault .kRange r) ∨
    (k ≤ c.wordBits ∧ injwCommand cv k r = injectWord cv r.WDATA k r) := by
  unfold injwCommand
  split_ifs with h
  · exact .inl ⟨h, rfl⟩
  · exact .inr ⟨by omega, rfl⟩

end Sys2Proof.Machine
end

