-- ==== Sys2Proof/Laws/PerInstr.lean ====
section
/-! SUPPORT. Per-instruction facts about the encoding: every command's word is a word of its row of the
table in 30_encoding.md R64 (word AND mask = match). -/

namespace Sys2Proof.Laws

/-- The word of a command lies in its own row. -/
def TableRow.Statement (i : Instr) : Prop := encode i &&& tableMask i = tableMatch i

/-- The mask of an injection cuts the bit count off. -/
theorem commandWord_masked (op : BitVec 4) (conv : BitVec 2) (k : Nat) :
    commandWord op conv k &&& 0xFFFF0000#32 = commandWord op conv 0 := by
  have h : ∀ j < 32, (0xFFFF0000#32).getLsbD j = decide (16 ≤ j) := by decide
  refine BitVec.eq_of_getLsbD_eq fun j hj => ?_
  simp only [commandWord, BitVec.getLsbD_and, BitVec.getLsbD_or, BitVec.getLsbD_shiftLeft,
    BitVec.getLsbD_setWidth, h j hj]
  by_cases hk : 16 ≤ j
  · simp [hk, BitVec.getLsbD_of_ge]
  · simp [hk, show j < 28 by omega, show j < 26 by omega]

theorem TableRow.injwBB (k : Nat) : TableRow.Statement (.injwBB k) :=
  (commandWord_masked 0x1 _ k).trans (by decide : commandWord 0x1 (convCode .bb) 0 = 0x10000000#32)

theorem TableRow.injwLB (k : Nat) : TableRow.Statement (.injwLB k) :=
  (commandWord_masked 0x1 _ k).trans (by decide : commandWord 0x1 (convCode .lb) 0 = 0x14000000#32)

theorem TableRow.injwBL (k : Nat) : TableRow.Statement (.injwBL k) :=
  (commandWord_masked 0x1 _ k).trans (by decide : commandWord 0x1 (convCode .bl) 0 = 0x18000000#32)

theorem TableRow.injwLL (k : Nat) : TableRow.Statement (.injwLL k) :=
  (commandWord_masked 0x1 _ k).trans (by decide : commandWord 0x1 (convCode .ll) 0 = 0x1C000000#32)

theorem TableRow.injbBB (k : Nat) : TableRow.Statement (.injbBB k) :=
  (commandWord_masked 0x2 _ k).trans (by decide : commandWord 0x2 (convCode .bb) 0 = 0x20000000#32)

theorem TableRow.injbLB (k : Nat) : TableRow.Statement (.injbLB k) :=
  (commandWord_masked 0x2 _ k).trans (by decide : commandWord 0x2 (convCode .lb) 0 = 0x24000000#32)

theorem TableRow.injbBL (k : Nat) : TableRow.Statement (.injbBL k) :=
  (commandWord_masked 0x2 _ k).trans (by decide : commandWord 0x2 (convCode .bl) 0 = 0x28000000#32)

theorem TableRow.injbLL (k : Nat) : TableRow.Statement (.injbLL k) :=
  (commandWord_masked 0x2 _ k).trans (by decide : commandWord 0x2 (convCode .ll) 0 = 0x2C000000#32)

theorem TableRow.bclr : TableRow.Statement .bclr := by unfold TableRow.Statement; decide

theorem TableRow.linit : TableRow.Statement .linit := by unfold TableRow.Statement; decide

theorem TableRow.advr : TableRow.Statement .advr := by unfold TableRow.Statement; decide

theorem TableRow.advf : TableRow.Statement .advf := by unfold TableRow.Statement; decide

theorem TableRow.genc : TableRow.Statement .genc := by unfold TableRow.Statement; decide

theorem TableRow.gent : TableRow.Statement .gent := by unfold TableRow.Statement; decide

end Sys2Proof.Laws
end

