-- ==== Sys2Proof/Laws/Safety.lean ====
section
/-! SUPPORT. The small lemmas of the terms in Safety.lean. -/

namespace Sys2Proof.Machine

/-- The program is done when no host action is left to come. -/
theorem State.programDone_iff (s : State) : s.programDone = true ↔ ∀ a, Event.host a ∉ s.inputs := by
  simp only [State.programDone, Bool.not_eq_true', List.any_eq_false]
  constructor
  · exact fun h a ha => h _ ha rfl
  · intro h e he
    cases e with
    | host a => exact absurd he (h a)
    | generatorTurn => exact Bool.false_ne_true
    | reset => exact Bool.false_ne_true

theorem appendIfFits_of_fits {c : Config} {bits : List Bool} {k : Nat} (h : bits.length + k ≤ c.blockBits)
    (bit : Nat → Bool) : appendIfFits c bits k bit = bits ++ (List.range k).map bit := if_pos h

theorem appendIfFits_of_full {c : Config} {bits : List Bool} {k : Nat} (h : c.blockBits < bits.length + k)
    (bit : Nat → Bool) : appendIfFits c bits k bit = bits := if_neg (by omega)

/-- What was committed fits the block. -/
theorem appendIfFits_length_le {c : Config} {bits : List Bool} (h : bits.length ≤ c.blockBits) (k : Nat)
    (bit : Nat → Bool) : (appendIfFits c bits k bit).length ≤ c.blockBits := by
  unfold appendIfFits
  split_ifs with hk
  · simpa using hk
  · exact h

end Sys2Proof.Machine
end

