-- ==== Sys2Proof/Laws/Step.lean ====
section
/-! SUPPORT. What a command, a host action and a step can do, said once. -/

namespace Sys2Proof.Machine

@[simp] theorem exec_injw (cv : Conv) (k : Nat) (s : State) :
    exec (.injw cv k) s = .next (s.setRegs (injwCommand cv k s.regs)) := by cases cv <;> rfl

@[simp] theorem exec_injb (cv : Conv) (k : Nat) (s : State) :
    exec (.injb cv k) s = .next (s.setRegs (injectBlock cv k s.regs)) := by cases cv <;> rfl

@[simp] theorem exec_bclr (s : State) :
    exec .bclr s =
      .next (s.setRegs { s.regs with B := Vector.replicate s.cfg.blockWords 0, SEEN := 0 }) := rfl

@[simp] theorem exec_linit (s : State) : exec .linit s = .next (s.setRegs (issue .linit s.regs)) := rfl

@[simp] theorem exec_advr (s : State) : exec .advr s = .next (s.setRegs (issue .advr s.regs)) := rfl

@[simp] theorem exec_advf (s : State) : exec .advf s = .next (s.setRegs (issue .advf s.regs)) := rfl

@[simp] theorem exec_genc (s : State) : exec .genc s = .next (s.setRegs (issue .genc s.regs)) := rfl

@[simp] theorem exec_gent (s : State) : exec .gent s = .next (s.setRegs (issue .gent s.regs)) := rfl

/-- What a command does to the registers: a word injection, a block injection, a clear, or the issue
of a generator command. -/
theorem exec_cases (i : Instr) (s : State) :
    ∃ r', exec i s = .next (s.setRegs r') ∧
      ((∃ cv k, r' = injwCommand cv k s.regs) ∨ (∃ cv k, r' = injectBlock cv k s.regs) ∨
       (i = .bclr ∧ r' = { s.regs with B := Vector.replicate s.cfg.blockWords 0, SEEN := 0 }) ∨
       (∃ g, r' = issue g s.regs)) := by
  cases i with
  | injwBB k => exact ⟨_, rfl, .inl ⟨.bb, k, rfl⟩⟩
  | injwLB k => exact ⟨_, rfl, .inl ⟨.lb, k, rfl⟩⟩
  | injwBL k => exact ⟨_, rfl, .inl ⟨.bl, k, rfl⟩⟩
  | injwLL k => exact ⟨_, rfl, .inl ⟨.ll, k, rfl⟩⟩
  | injbBB k => exact ⟨_, rfl, .inr (.inl ⟨.bb, k, rfl⟩)⟩
  | injbLB k => exact ⟨_, rfl, .inr (.inl ⟨.lb, k, rfl⟩)⟩
  | injbBL k => exact ⟨_, rfl, .inr (.inl ⟨.bl, k, rfl⟩)⟩
  | injbLL k => exact ⟨_, rfl, .inr (.inl ⟨.ll, k, rfl⟩)⟩
  | bclr => exact ⟨_, rfl, .inr (.inr (.inl ⟨rfl, rfl⟩))⟩
  | linit => exact ⟨_, rfl, .inr (.inr (.inr ⟨.linit, rfl⟩))⟩
  | advr => exact ⟨_, rfl, .inr (.inr (.inr ⟨.advr, rfl⟩))⟩
  | advf => exact ⟨_, rfl, .inr (.inr (.inr ⟨.advf, rfl⟩))⟩
  | genc => exact ⟨_, rfl, .inr (.inr (.inr ⟨.genc, rfl⟩))⟩
  | gent => exact ⟨_, rfl, .inr (.inr (.inr ⟨.gent, rfl⟩))⟩

/-- What `HostWrite` does: a command, an illegal command, or a register write. -/
theorem hostWrite_cases (rn : RegNum) (v : Nat) (s : State) :
    (∃ i, decode (BitVec.ofNat 32 v) = .ok i ∧ hostWrite rn v s = exec i s) ∨
    (∃ cause, hostWrite rn v s = .next (s.setRegs (raiseFault cause s.regs))) ∨
    (∃ x, regName s.cfg rn = some x ∧ x ≠ .cmd ∧
      hostWrite rn v s = .next (s.setRegs (writeRegister v s.regs x))) := by
  unfold hostWrite
  split
  · exact .inr (.inl ⟨_, rfl⟩)
  · unfold issueCommand
    split
    · rename_i i h; exact .inl ⟨i, h, rfl⟩
    · exact .inr (.inl ⟨_, rfl⟩)
  · rename_i x hx h
    exact .inr (.inr ⟨x, h, hx, rfl⟩)

/-- What a register write does (20_memory.md R42, R43, R56). -/
theorem writeRegister_cases {c : Config} (v : Nat) (r : Regs c) (x : RegName) :
    writeRegister v r x = r ∨
    (∃ cause, writeRegister v r x = raiseFault cause r) ∨
    (∃ w, writeRegister v r x = { r with WDATA := w }) ∨
    (∃ i w, x = .src i ∧ writeRegister v r x = { r with SRC := Memory.write r.SRC i w }) ∨
    (r.STATUS.gbusy = false ∧
      ∃ n t rf rp p, writeRegister v r x = { r with N := n, T := t, RF := rf, RP := rp, P := p }) := by
  have hq : ∀ w : Regs c, paramWrite r w = raiseFault .genBusy r ∨
      (r.STATUS.gbusy = false ∧ paramWrite r w = w) := by
    intro w
    unfold paramWrite
    cases hb : r.STATUS.gbusy <;> simp
  cases x with
  | cmd => exact .inl rfl
  | wdata => exact .inr (.inr (.inl ⟨_, rfl⟩))
  | src i => exact .inr (.inr (.inr (.inl ⟨i, _, rfl, rfl⟩)))
  | n =>
    rcases hq { r with N := _ } with e | ⟨hb, e⟩
    · exact .inr (.inl ⟨_, e⟩)
    · exact .inr (.inr (.inr (.inr ⟨hb, _, _, _, _, _, e⟩)))
  | t =>
    rcases hq { r with T := _ } with e | ⟨hb, e⟩
    · exact .inr (.inl ⟨_, e⟩)
    · exact .inr (.inr (.inr (.inr ⟨hb, _, _, _, _, _, e⟩)))
  | rf =>
    rcases hq { r with RF := _ } with e | ⟨hb, e⟩
    · exact .inr (.inl ⟨_, e⟩)
    · exact .inr (.inr (.inr (.inr ⟨hb, _, _, _, _, _, e⟩)))
  | rp =>
    rcases hq { r with RP := _ } with e | ⟨hb, e⟩
    · exact .inr (.inl ⟨_, e⟩)
    · exact .inr (.inr (.inr (.inr ⟨hb, _, _, _, _, _, e⟩)))
  | p =>
    rcases hq { r with P := _ } with e | ⟨hb, e⟩
    · exact .inr (.inl ⟨_, e⟩)
    · exact .inr (.inr (.inr (.inr ⟨hb, _, _, _, _, _, e⟩)))
  | status => exact .inr (.inl ⟨_, rfl⟩)
  | seen => exact .inr (.inl ⟨_, rfl⟩)
  | lfsr => exact .inr (.inl ⟨_, rfl⟩)
  | idx => exact .inr (.inl ⟨_, rfl⟩)
  | b i => exact .inr (.inl ⟨_, rfl⟩)
  | rc i => exact .inr (.inl ⟨_, rfl⟩)

/-- What `HostRead` does: it never changes a register but `STATUS` on a bad access. -/
theorem hostRead_cases (rn : RegNum) (s : State) :
    hostRead rn s = badRead s ∨ (∃ w, hostRead rn s = unspecifiedRead w s) ∨
    (∃ x, hostRead rn s = { s with rdata := readValue s.regs x }) := by
  unfold hostRead
  split
  · exact .inl rfl
  · exact .inl rfl
  · split
    · exact .inr (.inl ⟨_, rfl⟩)
    · exact .inr (.inr ⟨_, rfl⟩)

/-- What a step does: the generator's turn where no event is left, else the next event. -/
theorem step_cases (s : State) :
    (s.inputs = [] ∧ step s = .next (generatorTurn s)) ∨
    (∃ e rest, s.inputs = e :: rest ∧ step s = takeEvent e { s with inputs := rest }) := by
  unfold step advance
  split
  · rename_i h; exact .inl ⟨h, rfl⟩
  · rename_i e rest h; exact .inr ⟨e, rest, h, rfl⟩

end Sys2Proof.Machine
end

