-- ==== Sys2Proof/Tests/Slice0.lean ====
section
/-! SUPPORT. Tests of the model, and the witnesses of the statements' hypotheses. Expected values are
those of spec/95_test_vectors.md (the section stands in each comment) or worked by hand from a rule. -/

namespace Sys2Proof.Tests

open Sys2Proof.Machine

/-! ## Helpers -/

/-- Configuration A of 95_test_vectors.md, with `NMAX = 8`, `RC_DEPTH = 195`. -/
def cfgA : Config := ⟨⟨8, 4, 3, 8, 195, 0b01, 0b0000⟩, by decide⟩

/-- A state of configuration A: the reset state with some registers changed, and inputs. -/
def stateA (f : Regs cfgA → Regs cfgA) (inputs : List Event) : State :=
  ⟨cfgA, f (Regs.reset cfgA 0 0), inputs, 0⟩

/-- A block, its cursor, `WDATA` and `SRC`. -/
def blockA (b : Vector (BitVec 8) 3) (seen : BitVec 16) (w : BitVec 8) (src : Memory 8) : State :=
  stateA (fun r => { r with B := b, SEEN := seen, WDATA := w, SRC := src }) []

/-- The generator's parameters and `LFSR`, idle, `IDX = 0`. -/
def genA (n t : BitVec 12) (rf rp : BitVec 10) (p : BitVec 8) (l : LfsrWord) : State :=
  stateA (fun r => { r with N := n, T := t, RF := rf, RP := rp, P := p, LFSR := l }) []

/-- The registers a command leaves. -/
def after (i : Instr) (s : State) : State :=
  match exec i s with
  | .next t => t
  | .fault _ => s
  | .refused _ => s

/-- The block and the cursor a command leaves. -/
def blockAfter (i : Instr) (s : State) : List Nat × Nat :=
  ((after i s).regs.B.toList.map BitVec.toNat, (after i s).regs.SEEN.toNat)

/-- What a generator command leaves when issued and completed: `LFSR`, `IDX`, `STATUS`, `RC`. -/
def completed (i : Instr) (s : State) : Nat × Nat × Nat × List (Nat × Nat) :=
  let r := complete (after i s).regs
  (r.LFSR.toNat, r.IDX.toNat, r.STATUS.toNat, r.RC.map fun e => (e.1, e.2.toNat))

/-! ## Well-formedness: an ill-formed term for each check -/

theorem test_wf_refuses_injwBB_count : ¬ (Instr.injwBB 65536).WellFormed := by decide
theorem test_wf_refuses_injwLB_count : ¬ (Instr.injwLB 65536).WellFormed := by decide
theorem test_wf_refuses_injwBL_count : ¬ (Instr.injwBL 65536).WellFormed := by decide
theorem test_wf_refuses_injwLL_count : ¬ (Instr.injwLL 65536).WellFormed := by decide
theorem test_wf_refuses_injbBB_count : ¬ (Instr.injbBB 65536).WellFormed := by decide
theorem test_wf_refuses_injbLB_count : ¬ (Instr.injbLB 65536).WellFormed := by decide
theorem test_wf_refuses_injbBL_count : ¬ (Instr.injbBL 65536).WellFormed := by decide
theorem test_wf_refuses_injbLL_count : ¬ (Instr.injbLL 65536).WellFormed := by decide

/-- Each constraint of 00_scope.md R4 refuses a parameter set (R5), in the order of `Params.Wf`. -/
theorem test_config_refuses :
    [(⟨0, 1, 1, 8, 8, 1, 0⟩ : Params), ⟨8, 0, 1, 8, 8, 1, 0⟩, ⟨8, 16, 1, 8, 8, 1, 0⟩,
     ⟨8, 3, 1, 8, 8, 1, 0⟩, ⟨8, 4, 0, 8, 8, 1, 0⟩, ⟨32, 8, 2048, 8, 8, 1, 0⟩, ⟨8, 4, 1, 0, 8, 1, 0⟩,
     ⟨8, 4, 1, 4096, 8, 1, 0⟩, ⟨8, 4, 1, 8, 2 ^ 23 + 1, 1, 0⟩].all
      (fun p => (Config.ofParams? p).isNone) = true := by decide

/-- A parameter set at the upper bounds is a configuration. -/
theorem test_config_accepts_bounds :
    (Config.ofParams? ⟨65535, 5, 1, 4095, 2 ^ 23, 1, 0⟩).isSome = true := by decide

/-! ## Decoding: every row of 30_encoding.md R64 as `op ‖ conv ‖ 0^10 ‖ k`, section 7 of the vectors -/

theorem test_decode_injwBB : decode 0b0001_00_0000000000_0000000000001000#32 = .ok (.injwBB 8) := by decide
theorem test_decode_injwLB : decode 0b0001_01_0000000000_1111111111111111#32 = .ok (.injwLB 65535) := by decide
theorem test_decode_injwBL : decode 0b0001_10_0000000000_0000000000000101#32 = .ok (.injwBL 5) := by decide
theorem test_decode_injwLL : decode 0b0001_11_0000000000_0000000000000011#32 = .ok (.injwLL 3) := by decide
theorem test_decode_injbBB : decode 0b0010_00_0000000000_0000000000001011#32 = .ok (.injbBB 11) := by decide
theorem test_decode_injbLB : decode 0b0010_01_0000000000_0000000000101000#32 = .ok (.injbLB 40) := by decide
theorem test_decode_injbBL : decode 0b0010_10_0000000000_1111111111111111#32 = .ok (.injbBL 65535) := by decide
theorem test_decode_injbLL : decode 0b0010_11_0000000000_0000000000000000#32 = .ok (.injbLL 0) := by decide
theorem test_decode_bclr : decode 0b0011_00_0000000000_0000000000000000#32 = .ok .bclr := by decide
theorem test_decode_linit : decode 0b1000_00_0000000000_0000000000000000#32 = .ok .linit := by decide
theorem test_decode_advr : decode 0b1001_00_0000000000_0000000000000000#32 = .ok .advr := by decide
theorem test_decode_advf : decode 0b1010_00_0000000000_0000000000000000#32 = .ok .advf := by decide
theorem test_decode_genc : decode 0b1011_00_0000000000_0000000000000000#32 = .ok .genc := by decide
theorem test_decode_gent : decode 0b1100_00_0000000000_0000000000000000#32 = .ok .gent := by decide

theorem test_decode_rejects_zeroField : decode 0x13FF0000 = .error .zeroField := by decide
theorem test_decode_rejects_reservedOp :
    [0x00000000#32, 0x40000000#32, 0x50000000#32, 0x60000000#32, 0x70000000#32, 0xD0000000#32,
     0xE0000000#32, 0xF0000000#32].all (fun w => decide (decode w = .error .reservedOp)) = true := by
  decide
theorem test_decode_rejects_unusedConv :
    decode 0x34000000 = .error .unusedConv ∧ decode 0xC4000000 = .error .unusedConv := by decide
theorem test_decode_rejects_unusedCount :
    decode 0x30000001 = .error .unusedCount ∧ decode 0xC0000001 = .error .unusedCount := by decide

theorem test_decodeTableWord : decodeTableWord 32 0x2C000005 = some (.injbLL 5) ∧
    decodeTableWord 32 0x4C000005 = none := by decide

/-! ## The word injector (vectors 3.1, 3.2, 3.6) -/

theorem test_injwBB_spills : blockAfter (.injwBB 6) (blockA #v[0xB0, 0, 0] 5 0xFF []) =
    ([0xB7, 0xE0, 0x00], 11) := by decide
theorem test_injwBB_clears_uncommitted : blockAfter (.injwBB 0) (blockA #v[0xFF, 0xFF, 0xFF] 3 0 []) =
    ([0xE0, 0xFF, 0xFF], 3) := by decide
theorem test_injwLB_straddles_units : blockAfter (.injwLB 8) (blockA #v[0xF5, 0x0E, 0] 11 0xA7 []) =
    ([0xF5, 0xFE, 0x04], 19) := by decide
theorem test_injwLB_spill_overwrites : blockAfter (.injwLB 7) (blockA #v[0xFF, 0xFF, 0xFF] 3 0 []) =
    ([0x0E, 0x00, 0xFF], 10) := by decide
theorem test_injwBL_fills_block : blockAfter (.injwBL 5) (blockA #v[0xBF, 0x7D, 0x30] 19 0x3C []) =
    ([0xBF, 0x7D, 0xB1], 24) := by decide
theorem test_injwBL_saturates : blockAfter (.injwBL 1) (blockA #v[0xBF, 0x7D, 0xB1] 24 0xFF []) =
    ([0xBF, 0x7D, 0xB1], 24) := by decide
theorem test_injwLL_mixed : blockAfter (.injwLL 3) (blockA #v[0xB0, 0, 0] 5 0xFF []) =
    ([0xF0, 0, 0], 8) := by decide
theorem test_injwLL_faults_before_saturating :
    (after (.injwLL 9) (blockA #v[1, 2, 3] 24 0xFF [])).regs.STATUS = 0x24 := by decide
theorem test_bclr : blockAfter .bclr (blockA #v[0xB7, 0xF4, 0xE7] 24 0 []) = ([0, 0, 0], 0) := by decide

/-! ## The block injector (vectors 4.1) -/

theorem test_injbBB : blockAfter (.injbBB 11) (blockA #v[0xB0, 0, 0] 5 0 [(0, 0xA7), (1, 0x3C), (2, 0)]) =
    ([0xB5, 0x39, 0x00], 16) := by decide
theorem test_injbLB_fills_block :
    blockAfter (.injbLB 19) (blockA #v[0x85, 0, 0] 5 0 [(0, 0xA7), (1, 0x3C), (2, 0xFF)]) =
    ([0xB5, 0x6D, 0xF1], 24) := by decide
theorem test_injbBL_saturates :
    blockAfter (.injbBL 20) (blockA #v[0xB1, 0, 0] 5 0 [(0, 0xA7), (1, 0x3C), (2, 0xFF)]) =
    ([0xB1, 0, 0], 5) := by decide
theorem test_injbBL : blockAfter (.injbBL 19) (blockA #v[0xB1, 0, 0] 5 0 [(0, 0xA7), (1, 0x3C), (2, 0xFF)]) =
    ([0xB5, 0xF6, 0x8F], 24) := by decide
theorem test_injbLL : blockAfter (.injbLL 11) (blockA #v[0x15, 0, 0] 5 0 [(0, 0xA7), (1, 0x3C), (2, 0)]) =
    ([0xF5, 0x94, 0x00], 16) := by decide
/-- `INJB.<c> 0` clears nothing (41_block_injector.md R91). -/
theorem test_injbLL_zero : blockAfter (.injbLL 0) (blockA #v[0xFF, 0xFF, 0] 3 0 []) =
    ([0xFF, 0xFF, 0], 3) := by decide

/-! ## The generator (vectors 5, 6) -/

theorem test_linit : completed .linit (genA 8 3 8 57 0 0) =
    (0x56A15E6D72F99655B54F, 0, 0, []) := by decide +kernel
theorem test_linit_of_reset_values : completed .linit (genA 0 0 0 0 0 0) =
    (0x3184F382AFB039CAEC21, 0, 0, []) := by decide +kernel
theorem test_advr : completed .advr (genA 0 0 0 0 0 0xA0FAB62838B4D8DE21F2) =
    (0x41F56C507169B1BC43E5, 0, 0, []) := by decide
theorem test_advr_issue_busy :
    (after .advr (genA 0 0 0 0 0 1)).regs.STATUS = 1 ∧ (after .advr (genA 0 0 0 0 0 1)).regs.GOP = some .advr := by
  decide
theorem test_advf_maximum : completed .advf (genA 0 0 0 0 0 0x80000000000000000000) =
    (0x00004008104004C0A115, 0, 0, []) := by decide +kernel
theorem test_advf_hangs : completed .advf (genA 0 0 0 0 0 0) = (0, 0, 1, []) := by decide +kernel
theorem test_genc : completed .genc (genA 8 3 8 57 251 0x56A15E6D72F99655B54F) =
    (0xE6D72F99655B54F2A4E7, 1, 0, [(0, 33)]) := by decide +kernel
theorem test_genc_faults : (after .genc (genA 9 0 0 0 251 1)).regs.STATUS = 0x44 := by decide
theorem test_gent : completed .gent (genA 4 2 1 1 5 0) =
    (0x632FCFBDEB731A0343E1, 4, 2, [(0, 3), (1, 2), (2, 3), (3, 0)]) := by decide +kernel
theorem test_gent_faults_at_reset : (after .gent (genA 0 0 0 0 0 0)).regs.STATUS = 0x44 := by decide

/-! ## The host port and the step (vectors 7, 8) -/

/-- The state a step leaves. -/
def stepped (s : State) : State :=
  match step s with
  | .next t => t
  | .fault _ => s
  | .refused _ => s

/-- P5: the all-zero word is illegal; `STATUS` then reads `0x14`. -/
theorem test_illegal_command :
    (stepped (stateA id [.host (.write 0 0)])).regs.STATUS = 0x14 := by decide
/-- P5: a second fault keeps the first cause. -/
theorem test_first_cause_stays :
    (stepped (stateA (fun r => { r with STATUS := 0x14 }) [.host (.write 2 3)])).regs.STATUS = 0x14 := by
  decide
/-- A write of `N` drops the bits above 12 (20_memory.md R42). -/
theorem test_write_truncates : (stepped (stateA id [.host (.write 4 0x12345)])).regs.N = 0x345 := by decide
/-- P6: a parameter write while busy. -/
theorem test_write_busy :
    let t := stepped (stateA (fun r => { r with N := 8, STATUS := 1 }) [.host (.write 4 4)])
    t.regs.N = 8 ∧ t.regs.STATUS = 0x35 := by decide
/-- P1: `RD B[1]`. -/
theorem test_read_block :
    (stepped (stateA (fun r => { r with B := #v[0xB7, 0xF4, 0xE7] }) [.host (.read 0x10001)])).rdata = 0xF4 := by
  decide
/-- A read of `CMD` is a bad access that returns 0. -/
theorem test_read_cmd :
    let t := stepped ⟨cfgA, Regs.reset cfgA 0 0, [.host (.read 0)], 7⟩
    t.rdata = 0 ∧ t.regs.STATUS = 0x54 := by decide
theorem test_reset_clears_fault :
    (stepped (stateA (fun r => { r with STATUS := 0x37, GOP := some .gent }) [.reset])).regs.STATUS = 0 := by
  decide
/-- The host's word runs as the first command after reset. -/
theorem test_withFetchWord :
    (stepped (State.reset.withFetchWord 32 0x1C000005)).regs.SEEN = 5 ∧
    (stepped (State.reset.withFetchWord 32 0x1C000005)).inputs = [] := by decide

/-! ## Witnesses: a concrete state for the hypotheses of each statement -/

/-- A busy state with a pending `GENT`. -/
def busyA (inputs : List Event) : State :=
  stateA (fun r => { r with N := 4, T := 2, RF := 1, RP := 1, P := 5, STATUS := 1, GOP := some .gent }) inputs

theorem witness_ResetEventResetsEverything :
    (busyA [.reset, .generatorTurn]).inputs = .reset :: [.generatorTurn] := by decide

theorem witness_StepKeepsGood : (busyA [.generatorTurn]).Good ∧
    step (busyA [.generatorTurn]) = .next (generatorTurn (busyA [])) :=
  ⟨⟨by decide, by decide, by unfold Status.reservedZero; decide, by decide, by decide, by decide, by decide,
    by decide, by decide, by decide, by decide⟩, rfl⟩

theorem witness_DecodeOfEncodeIsTheCommand :
    (Instr.injwBB 0).WellFormed ∧ (Instr.injbLL 65535).WellFormed ∧ Instr.gent.WellFormed := by decide

theorem witness_DecodedWordIsItsEncoding : decode 0x1C00FFFF = .ok (.injwLL 65535) := by decide

theorem witness_CommandWriteRunsTheDecodedCommand :
    (stateA id [.host (.write 0 0x130000000)]).inputs = .host (.write 0 0x130000000) :: [] ∧
    decode (BitVec.ofNat 32 0x130000000) = .ok .bclr ∧ (Instr.injwBB 65535).WellFormed := by decide

theorem witness_UnencodedWordRecordsIllegalCmd :
    (stateA id [.host (.write 0 0x4)]).inputs = .host (.write 0 0x4) :: [] ∧
    ∀ i : Instr, i.WellFormed → encode i ≠ BitVec.ofNat 32 0x4 := by
  refine ⟨by decide, fun i _ h => ?_⟩
  have h28 : ((encode i).extractLsb' 28 4) = 0 := by rw [h]; decide
  have hop : ∀ (op : BitVec 4) (cv : BitVec 2) (k : Nat), (commandWord op cv k).extractLsb' 28 4 = op := by
    intro op cv k
    refine BitVec.eq_of_getLsbD_eq fun j hj => ?_
    simp only [commandWord, BitVec.getLsbD_extractLsb', BitVec.getLsbD_or, BitVec.getLsbD_shiftLeft,
      BitVec.getLsbD_setWidth, hj, decide_true, Bool.true_and]
    rw [BitVec.getLsbD_of_ge cv _ (by omega), BitVec.getLsbD_of_ge (BitVec.ofNat 16 k) _ (by omega),
      Nat.add_sub_cancel_left]
    simp [show 28 + j < 32 by omega, show j < 32 by omega]
  cases i <;> simp only [encode, hop] at h28 <;> exact absurd h28 (by decide)

theorem witness_RaiseFaultWritesFirstCause :
    (Cause.illegalCmd, 1#32) ∈ [(Cause.illegalCmd, 1#32), (.kRange, 2#32), (.genBusy, 3#32),
      (.genParam, 4#32), (.badAccess, 5#32)] ∧
    (Cause.badAccess, 5#32) ∈ [(Cause.illegalCmd, 1#32), (.kRange, 2#32), (.genBusy, 3#32),
      (.genParam, 4#32), (.badAccess, 5#32)] := by decide

theorem witness_FaultRecordIsSticky :
    let s := stateA (fun r => { r with STATUS := 0x14 }) [.host (.write 0 0)]
    step s = .next (stepped s) ∧ (∀ rest, s.inputs ≠ .reset :: rest) ∧ s.regs.STATUS.fault = true := by
  intro s
  refine ⟨rfl, ?_, by decide⟩
  intro rest h
  cases h

theorem witness_OverlongWordInjectionFaults : (blockA #v[0, 0, 0] 24 0 []).cfg.wordBits < 9 := by decide

theorem witness_BusyGeneratorDropsCommandsAndWrites :
    (busyA [.host (.write 8 1)]).regs.STATUS.gbusy = true ∧
    (busyA [.host (.write 8 1)]).inputs = .host (.write 8 1) :: [] ∧
    (busyA [.host (.write 4 1)]).inputs = .host (.write 4 1) :: [] ∧
    (4 : RegNum) ∈ ([4, 5, 6, 7, 8] : List RegNum) ∧ (8 : RegNum) ∈ ([4, 5, 6, 7, 8] : List RegNum) := by
  decide

/-- One state for each disjunct: `N = 0`, `N = NMAX + 1`, `P = 0`, `IDX = RC_DEPTH`. -/
theorem witness_UnusableParametersFault_genc :
    (genA 0 1 1 1 5 1).regs.STATUS.gbusy = false ∧ (genA 0 1 1 1 5 1).regs.N = 0 ∧
    (genA 9 1 1 1 5 1).cfg.nmax < (genA 9 1 1 1 5 1).regs.N.toNat ∧ (genA 8 1 1 1 0 1).regs.P = 0 ∧
    (let s := stateA (fun r => { r with N := 8, P := 5, IDX := 195 }) []
     s.cfg.rcDepth ≤ s.regs.IDX.toNat ∧ s.regs.STATUS.gbusy = false) := by decide

/-- `(RF + RP) × T = 196` is one more than `RC_DEPTH`; `T = 0` and `RF + RP = 0` are empty tables. -/
theorem witness_UnusableParametersFault_gent :
    (genA 8 196 1 0 5 1).cfg.rcDepth <
      ((genA 8 196 1 0 5 1).regs.RF.toNat + (genA 8 196 1 0 5 1).regs.RP.toNat) * (genA 8 196 1 0 5 1).regs.T.toNat ∧
    ((genA 8 0 1 1 5 1).regs.N ≠ 0 ∧ (genA 8 0 1 1 5 1).regs.N.toNat ≤ (genA 8 0 1 1 5 1).cfg.nmax ∧
      (genA 8 0 1 1 5 1).regs.P ≠ 0 ∧ (genA 8 0 1 1 5 1).regs.T = 0) ∧
    ((genA 1 3 0 0 5 1).regs.N ≠ 0 ∧ (genA 1 3 0 0 5 1).regs.P ≠ 0 ∧
      (genA 1 3 0 0 5 1).regs.RF.toNat + (genA 1 3 0 0 5 1).regs.RP.toNat = 0) := by decide

/-- The last entry of the table for `GENC`; a table of exactly `RC_DEPTH = 195` entries for `GENT`. -/
theorem witness_UnusableParametersFault_accepted :
    (let s := stateA (fun r => { r with N := 8, P := 1, IDX := 194 }) []
     s.regs.STATUS.gbusy = false ∧ s.regs.N ≠ 0 ∧ s.regs.N.toNat ≤ s.cfg.nmax ∧ s.regs.P ≠ 0 ∧
     s.regs.IDX.toNat < s.cfg.rcDepth) ∧
    (let s := genA 8 195 1 0 5 1
     s.regs.STATUS.gbusy = false ∧ s.regs.N ≠ 0 ∧ s.regs.N.toNat ≤ s.cfg.nmax ∧ s.regs.P ≠ 0 ∧
     (s.regs.RF.toNat + s.regs.RP.toNat) * s.regs.T.toNat ≤ s.cfg.rcDepth) := by decide

theorem witness_PhysFollowsUnitAndBitOrder : 0 < cfgA.wordBits ∧ 7 < cfgA.wordBits := by decide

/-- The largest count a word carries, and the first and last counts that are no `K_RANGE` fault. -/
theorem witness_InjwBBIsMaskAndShift_InjwLLIsMaskAndShift :
    65535 < 2 ^ 16 ∧ ¬cfgA.wordBits < 0 ∧ ¬cfgA.wordBits < 8 ∧ cfgA.wordBits < 9 := by decide

theorem witness_UnitOrderedMasksSelectFirstStreamBits :
    8 ≤ cfgA.wordBits ∧ 7 < cfgA.wordBits ∧ 0 ≤ cfgA.wordBits ∧ 0 < cfgA.wordBits := by decide

/-- A saturating injection by one bit, a full block with `k = 0`, and one that fits exactly. -/
theorem witness_InjwCommitsStreamBits :
    let s := blockA #v[0xB7, 0xF4, 0xE0] 19 0xFF []
    let full := blockA #v[0xB7, 0xF4, 0xE7] 24 0xFF []
    (6 ≤ s.cfg.wordBits ∧ s.cfg.blockBits < s.regs.SEEN.toNat + 6) ∧
    (0 ≤ full.cfg.wordBits ∧ full.regs.SEEN.toNat = full.cfg.blockBits) ∧
    (5 ≤ s.cfg.wordBits ∧ s.regs.SEEN.toNat + 5 ≤ s.cfg.blockBits ∧
      s.regs.SEEN.toNat < s.cfg.blockBits) := by decide

/-- The four regions of the block after `INJW.BB 6` at `SEEN = 5`: committed, new, cleared, beyond. -/
theorem witness_InjwCommitsStreamBits_regions :
    let s := blockA #v[0xB0, 0xFF, 0xFF] 5 0xFF []
    4 < s.regs.SEEN.toNat ∧ 10 < s.regs.SEEN.toNat + 6 ∧
    (¬ 11 < s.regs.SEEN.toNat + 6 ∧ 11 / s.cfg.wordBits = s.regs.SEEN.toNat / s.cfg.wordBits + 1 ∧
      s.cfg.wordBits < s.regs.SEEN.toNat % s.cfg.wordBits + 6) ∧
    (16 / s.cfg.wordBits ≠ s.regs.SEEN.toNat / s.cfg.wordBits + 1 ∧ 23 < s.cfg.blockBits) := by decide

/-- `UnitBits = WordBits`; `UnitBits = 1`; a unit-aligned cursor and count. -/
theorem witness_ConventionsCoincide :
    (∃ c : Config, c.unitBits = c.wordBits ∧ c.wordBits = 8) ∧
    (∃ c : Config, c.unitBits = 1 ∧ c.wordBits = 8) ∧
    (blockA #v[0, 0, 0] 12 0xFF []).regs.SEEN.toNat % cfgA.unitBits = 0 ∧ 8 % cfgA.unitBits = 0 :=
  ⟨⟨⟨⟨8, 8, 3, 8, 195, 1, 0⟩, by decide⟩, by decide⟩, ⟨⟨⟨8, 1, 3, 8, 195, 1, 0⟩, by decide⟩, by decide⟩,
    by decide, by decide⟩

/-- Word and block injections that fill the block exactly, one of 0 bits, one that does not fit. -/
theorem witness_InjectedStreamReadsBack :
    let actions : List FillAction :=
      [.wdata 0xB5, .injw 8, .injw 0, .src 2 0x3C, .injb 11, .injb 65535, .wdata 0xFF, .injw 5]
    let s := stateA id (actions.map (FillAction.event .lb))
    s.regs.B = Vector.replicate s.cfg.blockWords 0 ∧ s.regs.SEEN = 0 ∧
    (∀ a ∈ actions, a.legal s.cfg = true) ∧ s.inputs = actions.map (FillAction.event .lb) ∧
    (streamAfter s.cfg .lb actions s.regs.WDATA s.regs.srcWord []).length = s.cfg.blockBits := by decide

theorem witness_InjbCommitsStreamBits :
    let s := blockA #v[0xB0, 0, 0] 5 0 [(0, 0xA7), (1, 0x3C), (2, 0xFF)]
    s.cfg.blockBits < 20 + s.regs.SEEN.toNat ∧ 19 + s.regs.SEEN.toNat ≤ s.cfg.blockBits ∧
    0 + s.regs.SEEN.toNat ≤ s.cfg.blockBits := by decide

/-- The regions of the block after `INJB.BB 11` at `SEEN = 4`: new, cleared, beyond. -/
theorem witness_InjbCommitsStreamBits_regions :
    let s := blockA #v[0xB0, 0xFF, 0xFF] 4 0 [(0, 0xA7), (1, 0x3C)]
    3 < s.regs.SEEN.toNat ∧ 14 < s.regs.SEEN.toNat + 11 ∧
    (¬ 15 < s.regs.SEEN.toNat + 11 ∧ 15 / s.cfg.wordBits ≤ (s.regs.SEEN.toNat + 11 - 1) / s.cfg.wordBits) ∧
    ¬ 16 / s.cfg.wordBits ≤ (s.regs.SEEN.toNat + 11 - 1) / s.cfg.wordBits := by decide

theorem witness_InjbIsASequenceOfInjw :
    let s := blockA #v[0xB0, 0, 0] 5 0 [(0, 0xA7), (1, 0x3C), (2, 0xFF)]
    3 < s.cfg.wordBits ∧ s.regs.SEEN.toNat + 2 * s.cfg.wordBits + 3 ≤ s.cfg.blockBits ∧
    0 < s.cfg.wordBits ∧ s.regs.SEEN.toNat + 2 * s.cfg.wordBits + 0 ≤ s.cfg.blockBits := by decide

/-- `st` differs from `STATUS` where an overlong `INJW` faults. -/
theorem witness_InjectorWritesOnlyBlockAndCursor :
    (after (.injw .bb 9) (blockA #v[0, 0, 0] 0 0 [])).regs.STATUS ≠ (blockA #v[0, 0, 0] 0 0 []).regs.STATUS := by
  decide

/-- An entry that a turn of the generator changes: `GENC`'s and `GENT`'s. -/
theorem witness_GeneratorTurnWritesOnlyGeneratorState :
    let r := (after .genc (genA 8 3 8 57 251 0x56A15E6D72F99655B54F)).regs
    Memory.read (complete r).RC 0 ≠ Memory.read r.RC 0 ∧
    Memory.read (complete (busyA []).regs).RC 3 ≠ Memory.read (busyA []).regs.RC 3 := by decide +kernel

theorem witness_CursorFallsOnlyByClearOrReset :
    let s := stateA id [.host (.write 0 0x10000005)]
    step s = .next (stepped s) ∧ (∀ rest, s.inputs ≠ .reset :: rest) ∧
    (∀ v rest, s.inputs = .host (.write 0 v) :: rest → decode (BitVec.ofNat 32 v) ≠ .ok .bclr) := by
  intro s
  refine ⟨rfl, ?_, ?_⟩
  · intro rest h
    cases h
  · intro v rest h
    cases h
    decide

theorem witness_PendingOperandsAreStable :
    (busyA [.host (.write 0 0xC0000000)]).regs.STATUS.gbusy = true ∧
    (busyA [.host (.write 0 0xC0000000)]).inputs = .host (.write 0 0xC0000000) :: [] := by decide

/-- Both sides of the three equivalences: a defined and an undefined filtered advance. -/
theorem witness_AdvanceFilteredStopsAtFirstSetBit :
    advanceFiltered 0x56A15E6D72F99655B54F = some 0x5A8579B5CBE65956D53C ∧ advanceFiltered 0 = none ∧
    (0x80000000000000000000#80) ≠ 0 := by decide +kernel

theorem witness_CandidateBitsAreMsbFirst : 0x56A15E6D72F99655B54F#80 ≠ 0 := by decide

/-- A constant found at once (`P = 251`) and one found after two rejected candidates (`P = 5`, section 6). -/
theorem witness_NextConstantHasNoIterationCap :
    nextConstant 0x56A15E6D72F99655B54F 8 251 = some (0xE6D72F99655B54F2A4E7, 33) ∧
    nextConstant 0xA0FAB62838B4D8DE21F2 4 5 = some (0x8A0E2D3637887CA0661C, 3) := by decide +kernel

theorem witness_LinitSeedsAndIdles : (genA 8 3 8 57 251 1).regs.STATUS.gbusy = false := by decide

theorem witness_AdvrAdvancesOnce : (genA 0 0 0 0 0 0).regs.STATUS.gbusy = false := by decide

theorem witness_AdvfAdvancesPastTheFirstSetBit :
    (genA 8 3 8 57 251 0x80000000000000000000).regs.STATUS.gbusy = false ∧
    (genA 8 3 8 57 251 0x80000000000000000000).regs.LFSR ≠ 0 := by decide

theorem witness_GencStoresTheNextConstant :
    let s := stateA (fun r => { r with N := 8, P := 251, LFSR := 0x56A15E6D72F99655B54F, IDX := 194 }) []
    s.regs.STATUS.gbusy = false ∧ 1 ≤ s.regs.N.toNat ∧ s.regs.N.toNat ≤ s.cfg.nmax ∧ s.regs.P ≠ 0 ∧
    s.regs.IDX.toNat < s.cfg.rcDepth ∧ s.regs.IDX.toNat + 1 < 2 ^ 23 ∧
    nextConstant s.regs.LFSR s.regs.N.toNat s.regs.P.toNat = some (0xE6D72F99655B54F2A4E7, 33) := by
  decide +kernel

/-- `LFSR = 0`: the rejection loop never ends. -/
theorem witness_GencStoresTheNextConstant_hangs :
    let s := genA 8 0 0 0 251 0
    s.regs.STATUS.gbusy = false ∧ 1 ≤ s.regs.N.toNat ∧ s.regs.N.toNat ≤ s.cfg.nmax ∧ s.regs.P ≠ 0 ∧
    s.regs.IDX.toNat < s.cfg.rcDepth ∧
    nextConstant s.regs.LFSR s.regs.N.toNat s.regs.P.toNat = none := by decide +kernel

theorem witness_GentIsLinitThenGencs :
    let s := genA 8 195 1 0 251 0
    s.regs.STATUS.gbusy = false ∧ 1 ≤ s.regs.N.toNat ∧ s.regs.N.toNat ≤ s.cfg.nmax ∧ s.regs.P ≠ 0 ∧
    (s.regs.RF.toNat + s.regs.RP.toNat) * s.regs.T.toNat ≤ s.cfg.rcDepth := by decide

/-- The composed effect is defined for the table of section 6. -/
theorem witness_GentIsLinitThenGencs_defined :
    ((fun o : Option (Regs cfgA) => o.bind gencEffect)^[4] (linitEffect (genA 4 2 1 1 5 0).regs)).isSome = true := by
  decide +kernel

theorem witness_CompletedTableIsBelowTheModulus :
    (busyA []).regs.STATUS.gbusy = true ∧ (busyA []).regs.GOP = some .gent ∧
    (complete (busyA []).regs).STATUS.gbusy = false ∧
    3 < ((busyA []).regs.RF.toNat + (busyA []).regs.RP.toNat) * (busyA []).regs.T.toNat := by decide +kernel

/-- Two states that differ in `LFSR` and `IDX`. -/
theorem witness_TableDependsOnParametersOnly :
    let r₁ := (busyA []).regs
    let r₂ := { r₁ with LFSR := 7, IDX := 9 }
    r₁.STATUS.gbusy = true ∧ r₂.STATUS.gbusy = true ∧ r₁.GOP = some .gent ∧ r₂.GOP = some .gent ∧
    r₁.N = r₂.N ∧ r₁.T = r₂.T ∧ r₁.RF = r₂.RF ∧ r₁.RP = r₂.RP ∧ r₁.P = r₂.P ∧
    (complete r₁).STATUS.gbusy = false := by decide +kernel

theorem witness_ZeroLfsrHangsFilteredCommands :
    let s := stateA (fun r => { r with STATUS := 1, GOP := some .advf }) []
    let g := stateA (fun r => { r with STATUS := 1, GOP := some .genc, N := 1 }) []
    (s.inputs = [] ∧ s.regs.STATUS.gbusy = true ∧ s.regs.LFSR = 0 ∧ s.regs.GOP = some .advf) ∧
    (g.inputs = [] ∧ g.regs.STATUS.gbusy = true ∧ g.regs.LFSR = 0 ∧ g.regs.GOP = some .genc ∧
      1 ≤ g.regs.N.toNat) := by decide

theorem witness_LfsrBecomesZeroOnlyByReset :
    let s := stateA (fun r => { r with LFSR := 0x80000000000000000000, STATUS := 1, GOP := some .advr })
      [.generatorTurn]
    step s = .next (stepped s) ∧ (∀ rest, s.inputs ≠ .reset :: rest) ∧ s.regs.LFSR ≠ 0 := by
  intro s
  refine ⟨rfl, ?_, by decide⟩
  intro rest h
  cases h

/-- Over with a turn and a reset left, over with nothing left, completing, and hanging (`LFSR = 0`). -/
theorem witness_RunIsOverOrCompletesOrHangs :
    let hung := stateA (fun r => { r with STATUS := 1, GOP := some .advf }) [.generatorTurn, .reset]
    (stateA id [.generatorTurn, .reset]).runOver = true ∧ (stateA id []).runOver = true ∧
    (stateA id [.host (.read 1)]).runOver = false ∧
    (busyA [.generatorTurn]).programDone = true ∧ (effect .gent (busyA []).regs).isSome = true ∧
    hung.programDone = true ∧ hung.regs.STATUS.gbusy = true ∧ hung.regs.GOP = some .advf ∧
    (effect .advf hung.regs).isSome = false ∧ hung.inputs.head? ≠ some .reset := by decide +kernel

theorem witness_RunIsOverOrCompletesOrHangs_noHostAction (a : HostAction) :
    Event.host a ∉ [Event.generatorTurn, .reset] ∧ Event.host a ∉ [Event.generatorTurn] := by simp

theorem witness_GeneratorTurnCompletes :
    (busyA [.generatorTurn]).inputs = .generatorTurn :: [] ∧ (busyA []).inputs = [] ∧
    (busyA []).regs.STATUS.gbusy = true ∧ (busyA []).regs.GOP = some .gent ∧
    (effect .gent (busyA []).regs).isSome = true ∧ (stateA id []).inputs = [] ∧
    (stateA id []).regs.STATUS.gbusy = false := by decide +kernel

/-- Fixed numbers, and the first and last word of each array. -/
theorem witness_HostReadReturnsTheRegister :
    (stateA id [.host (.read 1)]).inputs = .host (.read 1) :: [] ∧
    (stateA id [.host (.read 8)]).inputs = .host (.read 8) :: [] ∧
    (0 < cfgA.blockWords ∧ 2 < cfgA.blockWords ∧ 0x10002#32 = BitVec.ofNat 32 (0x10000 + 2) ∧
      0x20000#32 = BitVec.ofNat 32 (0x20000 + 0)) ∧
    (194 < cfgA.rcDepth ∧ 0x10000C2#32 = BitVec.ofNat 32 (0x1000000 + 194)) ∧
    (stateA id [.host (.read 0x10000C2)]).inputs = .host (.read 0x10000C2) :: [] ∧
    (stateA id [.host (.read 0x10000C2)]).regs.STATUS.gbusy = false := by decide

theorem witness_BusyReadIsSomeValueOfTheWidth :
    (busyA [.host (.read 9)]).inputs = .host (.read 9) :: [] ∧
    (busyA [.host (.read 9)]).regs.STATUS.gbusy = true ∧
    (busyA [.host (.read 10)]).inputs = .host (.read 10) :: [] ∧
    (busyA [.host (.read 0x10000C2)]).inputs = .host (.read 0x10000C2) :: [] ∧
    194 < cfgA.rcDepth ∧ 0x10000C2#32 = BitVec.ofNat 32 (0x1000000 + 194) := by decide

/-- The unmapped numbers next to each range. -/
theorem witness_BadAccessIsRecordedAndDropped :
    (stateA id [.host (.read 0)]).inputs = .host (.read 0) :: [] ∧
    (stateA id [.host (.write 0x10002 5)]).inputs = .host (.write 0x10002 5) :: [] ∧
    ∀ rn ∈ ([0xB, 0xFFFF, 0x10003, 0x1FFFF, 0x20003, 0xFFFFFF, 0x10000C3, 0xFFFFFFFF] : List RegNum),
      Unmapped cfgA rn := by
  refine ⟨rfl, rfl, ?_⟩
  intro rn h
  fin_cases h <;> simp [Unmapped, cfgA]

theorem witness_HostWriteStoresTheTruncatedValue :
    (stateA id [.host (.write 4 4096)]).inputs = .host (.write 4 4096) :: [] ∧
    (stateA id [.host (.write 4 4096)]).regs.STATUS.gbusy = false ∧
    (busyA [.host (.write 0x20002 256)]).inputs = .host (.write 0x20002 256) :: [] ∧
    2 < cfgA.blockWords ∧ 0x20002#32 = BitVec.ofNat 32 (0x20000 + 2) := by decide

end Sys2Proof.Tests
end

section
/-! Proofs about the host port (20_memory.md R40 to R43): which register some numbers name, what an
access to a register that does not exist or does not allow it does, and O46. -/

namespace Sys2Proof.Machine

/-! ## The map of register numbers -/

/-- A word holds at least one bit, so the block has no more words than bits (00_scope.md R4): the
numbers of `B` end before those of `SRC` begin. -/
theorem blockWords_le (c : Config) : c.blockWords ≤ 65535 := by
  obtain ⟨hword, _, _, _, _, hblock, _⟩ := c.wf
  exact (Nat.le_mul_of_pos_right _ hword).trans hblock

theorem regName_of_unmapped {c : Config} {rn : RegNum} (h : Unmapped c rn) : regName c rn = none := by
  obtain ⟨hscalar, hb, hsrc, hrc⟩ := h
  have hne : ∀ a ≤ 0xA, rn.toNat ≠ a := fun a ha => by omega
  simp [regName, hne, hb, hsrc, hrc]

theorem regName_blockWord {c : Config} {i : Nat} (hi : i < c.blockWords) :
    regName c (BitVec.ofNat 32 (0x10000 + i)) = some (.b i) := by
  have hle := blockWords_le c
  have hnum : (BitVec.ofNat 32 (0x10000 + i)).toNat = 0x10000 + i :=
    Nat.mod_eq_of_lt (by omega)
  have hne : ∀ a ≤ 0xA, 0x10000 + i ≠ a := fun a ha => by omega
  simp [regName, hnum, hne, hi]

theorem regName_rcEntry {c : Config} {i : Nat} (hi : i < c.rcDepth) :
    regName c (BitVec.ofNat 32 (0x1000000 + i)) = some (.rc i) := by
  have hle := blockWords_le c
  obtain ⟨_, _, _, _, _, _, _, _, hdepth⟩ := c.wf
  have hnum : (BitVec.ofNat 32 (0x1000000 + i)).toNat = 0x1000000 + i :=
    Nat.mod_eq_of_lt (by omega)
  have hne : ∀ a ≤ 0xA, 0x1000000 + i ≠ a := fun a ha => by omega
  have hb : ¬ 0x1000000 + i < 0x10000 + c.blockWords := by omega
  have hsrc : ¬ 0x1000000 + i < 0x20000 + c.blockWords := by omega
  simp [regName, hnum, hne, hb, hsrc, hi]

/-! ## Bad accesses -/

/-- The registers a host may read but not write (20_memory.md R40). -/
def RegName.isReadOnly : RegName → Bool
  | .status | .seen | .lfsr | .idx | .b _ | .rc _ => true
  | .cmd | .wdata | .n | .t | .rf | .rp | .p | .src _ => false

theorem writeRegister_of_isReadOnly {c : Config} {x : RegName} (h : x.isReadOnly = true) (v : Nat)
    (r : Regs c) : writeRegister v r x = raiseFault .badAccess r := by
  cases x with
  | status | seen | lfsr | idx | b | rc => rfl
  | cmd | wdata | n | t | rf | rp | p | src => cases h

/-- `rn` names no register, or one the host may not write. -/
def WriteDenied (c : Config) (rn : RegNum) : Prop :=
  regName c rn = none ∨ ∃ x, regName c rn = some x ∧ x.isReadOnly = true

/-- A read-only register is not `CMD` (`hcmd`), so the write issues no command. -/
theorem hostWrite_of_writeDenied {s : State} {rn : RegNum} (h : WriteDenied s.cfg rn) (v : Nat) :
    hostWrite rn v s = .next (s.setRegs (raiseFault .badAccess s.regs)) := by
  rcases h with hnone | ⟨x, hx, hro⟩
  · simp [hostWrite, hnone]
  · have hcmd : x ≠ .cmd := by rintro rfl; cases hro
    simp [hostWrite, hx, writeRegister_of_isReadOnly hro]

/-- `rn` names no register, or `CMD`, which holds no value. -/
theorem hostRead_of_unreadable {s : State} {rn : RegNum}
    (h : regName s.cfg rn = none ∨ regName s.cfg rn = some .cmd) : hostRead rn s = badRead s := by
  rcases h with h | h <;> simp [hostRead, h]

/-! ## One step on a host access -/

theorem step_of_read {s : State} {rn : RegNum} {rest : List Event}
    (h : s.inputs = .host (.read rn) :: rest) :
    step s = .next (hostRead rn { s with inputs := rest }) := by
  simp [step, advance, h, takeEvent]

theorem step_of_write {s : State} {rn : RegNum} {v : Nat} {rest : List Event}
    (h : s.inputs = .host (.write rn v) :: rest) :
    step s = hostWrite rn v { s with inputs := rest } := by
  simp [step, advance, h, takeEvent]

/-- Settles O46: the numbers listed are those the map gives no register, `CMD`, or a read-only one. -/
theorem badAccessIsRecordedAndDropped : Obligations.BadAccessIsRecordedAndDropped := by
  intro s rn rest
  constructor
  · intro hin hbad
    have hname : regName s.cfg rn = none ∨ regName s.cfg rn = some .cmd := by
      rcases hbad with rfl | hun
      · exact .inr rfl
      · exact .inl (regName_of_unmapped hun)
    rw [step_of_read hin, hostRead_of_unreadable (s := { s with inputs := rest }) hname]
    rfl
  · intro v hin hbad
    have hdenied : WriteDenied s.cfg rn := by
      rcases hbad with rfl | rfl | rfl | rfl | ⟨i, hi, rfl⟩ | ⟨i, hi, rfl⟩ | hun
      · exact .inr ⟨.status, rfl, rfl⟩
      · exact .inr ⟨.seen, rfl, rfl⟩
      · exact .inr ⟨.lfsr, rfl, rfl⟩
      · exact .inr ⟨.idx, rfl, rfl⟩
      · exact .inr ⟨.b i, regName_blockWord hi, rfl⟩
      · exact .inr ⟨.rc i, regName_rcEntry hi, rfl⟩
      · exact .inl (regName_of_unmapped hun)
    rw [step_of_write hin, hostWrite_of_writeDenied (s := { s with inputs := rest }) hdenied]
    rfl

end Sys2Proof.Machine
end

section
/-! Proofs about the word injector (40_word_injector.md R80 to R87): the stream bits an injection
commits (O18), its form by masks and shifts under the two conventions that have one (O19, O20), and
the block clear (O23). -/

namespace Sys2Proof.Machine

/-! ## `INJW` inside and outside its range -/

theorem injwCommand_of_le {c : Config} (cv : Conv) {k : Nat} (r : Regs c) (hk : k ≤ c.wordBits) :
    injwCommand cv k r = injectWord cv r.WDATA k r := if_neg (by omega)

theorem injwCommand_of_gt {c : Config} (cv : Conv) {k : Nat} (r : Regs c) (hk : c.wordBits < k) :
    injwCommand cv k r = raiseFault .kRange r := if_pos hk

/-! ## The stream bits of the block after an injection -/

/-- The cursor's word after an injection at in-word offset `o`: committed bits, then bits of `w`,
then zeros (R80). -/
theorem sbit_placeHere_keepStream {c : Config} (cv : Conv) (old w : BitVec c.wordBits) {o q : Nat}
    (k : Nat) (ho : o ≤ c.wordBits) (hq : q < c.wordBits) :
    sbit c cv (placeHere c cv (keepStream c cv old o) w o k) q =
      if q < o then sbit c cv old q else if q < o + k then sbit c cv w (q - o) else false := by
  rw [sbit_placeHere cv _ w o k hq, sbit_keepStream cv old ho hq]
  by_cases hold : q < o
  · rw [if_neg (by omega), if_pos hold, decide_eq_true hold, Bool.true_and]
  · rw [if_neg hold, decide_eq_false hold, Bool.false_and]
    exact if_congr ⟨And.right, fun h => ⟨by omega, h⟩⟩ rfl rfl

/-- An offset outside the cursor's word and the word it spills into is committed or beyond the new
bits. -/
theorem before_or_after_of_other_word {W n k p : Nat} (hW : 0 < W) (hhere : p / W ≠ n / W)
    (hspill : ¬ (p / W = n / W + 1 ∧ W < n % W + k)) (hk : k ≤ W) : p < n ∨ n + k ≤ p := by
  by_cases hbefore : p < n
  · exact .inl hbefore
  right
  have hcur := Nat.div_add_mod n W
  have ho := Nat.mod_lt n hW
  have hle : n / W ≤ p / W := Nat.div_le_div_right (Nat.le_of_not_lt hbefore)
  by_cases hnext : p / W = n / W + 1
  · have hstart : W * (n / W + 1) ≤ p := hnext ▸ Nat.mul_div_le p W
    rw [Nat.mul_succ] at hstart
    omega
  · have hstart : W * (n / W + 1 + 1) ≤ p :=
      (Nat.mul_le_mul_left W (by omega)).trans (Nat.mul_div_le p W)
    rw [Nat.mul_succ, Nat.mul_succ] at hstart
    omega

/-- R80 in stream bits, for any word `w`. A block offset is compared with the cursor through its
word index first: the cursor's word, the word a spill overwrites, and every other word. -/
theorem streamBit_injectWord_of_fits {c : Config} (cv : Conv) (w : BitVec c.wordBits) (k : Nat)
    (r : Regs c) (hk : k ≤ c.wordBits) (hfit : r.SEEN.toNat + k ≤ c.blockBits)
    (hroom : r.SEEN.toNat < c.blockBits) :
    ∃ B', injectWord cv w k r = { r with B := B', SEEN := BitVec.ofNat 16 (r.SEEN.toNat + k) } ∧
      ∀ p < c.blockBits, streamBit c cv B' p =
        if p < r.SEEN.toNat then streamBit c cv r.B p
        else if p < r.SEEN.toNat + k then sbit c cv w (p - r.SEEN.toNat)
        else if p / c.wordBits = r.SEEN.toNat / c.wordBits ∨
            (p / c.wordBits = r.SEEN.toNat / c.wordBits + 1 ∧
             c.wordBits < r.SEEN.toNat % c.wordBits + k) then false
        else streamBit c cv r.B p := by
  obtain ⟨B', heq, hwords⟩ := injectWord_of_fits cv w k r hfit hroom
  refine ⟨B', heq, fun p hp => ?_⟩
  have hW : 0 < c.wordBits := c.wf.1
  generalize r.SEEN.toNat = n at *
  have hpos := Nat.div_add_mod p c.wordBits
  have hcur := Nat.div_add_mod n c.wordBits
  have hq := Nat.mod_lt p hW
  have ho := Nat.mod_lt n hW
  unfold streamBit
  rw [hwords _ ((Nat.div_lt_iff_lt_mul hW).mpr hp)]
  by_cases hhere : p / c.wordBits = n / c.wordBits
  · rw [if_pos hhere, sbit_placeHere_keepStream cv _ w k ho.le hq, if_pos (Or.inl hhere)]
    rw [hhere] at hpos
    rw [show p - n = p % c.wordBits - n % c.wordBits by omega]
    exact if_congr (by omega) rfl (if_congr (by omega) rfl rfl)
  by_cases hspill : p / c.wordBits = n / c.wordBits + 1 ∧ c.wordBits < n % c.wordBits + k
  · rw [if_neg hhere, if_pos hspill, sbit_placeNext cv w (by omega) ho.le hq,
      if_pos (Or.inr hspill)]
    rw [hspill.1, Nat.mul_succ] at hpos
    rw [if_neg (by omega), show p - n = p % c.wordBits + c.wordBits - n % c.wordBits by omega]
    by_cases hnew : p < n + k
    · rw [if_pos hnew, decide_eq_true (by omega), Bool.true_and]
    · rw [if_neg hnew, decide_eq_false (by omega), Bool.false_and]
  · rw [if_neg hhere, if_neg hspill, if_neg (not_or.mpr ⟨hhere, hspill⟩)]
    rcases before_or_after_of_other_word hW hhere hspill hk with hbefore | hafter
    · rw [if_pos hbefore]
    · rw [if_neg (by omega), if_neg (by omega)]

/-- Settles O18: within its range an `INJW` is the word injection of `WDATA`. -/
theorem injwCommitsStreamBits : Obligations.InjwCommitsStreamBits := by
  intro cv k s hk
  rw [exec_injw, injwCommand_of_le cv s.regs hk]
  constructor
  · intro hfull
    rw [injectWord_of_full cv _ k s.regs hfull, setRegs_self]
  · intro hfit hroom
    obtain ⟨B', heq, hbits⟩ := streamBit_injectWord_of_fits cv s.regs.WDATA k s.regs hk hfit hroom
    exact ⟨B', by rw [heq]; rfl, hbits⟩

/-! ## Injection by masks and shifts -/

/-- Under convention `cv`, `mask k` selects the first `k` stream bits of a word, `later v d` moves
the stream bits of `v` to offsets `d` higher and `earlier v d` to offsets `d` lower, zeros coming in. -/
structure MovesStream (c : Config) (cv : Conv) (mask : Nat → BitVec c.wordBits)
    (later earlier : BitVec c.wordBits → Nat → BitVec c.wordBits) : Prop where
  sbit_mask : ∀ k ≤ c.wordBits, ∀ q < c.wordBits, sbit c cv (mask k) q = decide (q < k)
  sbit_later : ∀ v d, ∀ q < c.wordBits,
    sbit c cv (later v d) q = (decide (d ≤ q) && sbit c cv v (q - d))
  sbit_earlier : ∀ v d, ∀ q < c.wordBits,
    sbit c cv (earlier v d) q = (decide (q + d < c.wordBits) && sbit c cv v (q + d))

/-- Big-unit / big-bit: stream offset `q` is register bit `W - 1 - q`. -/
theorem movesStream_bb (c : Config) :
    MovesStream c .bb (highBits c.wordBits) (· >>> ·) (· <<< ·) where
  sbit_mask k hk q hq := by
    rw [sbit, phys, getLsbD_highBits hk]
    exact decide_eq_decide.mpr (by omega)
  sbit_later v d q hq := by
    simp only [sbit, phys, BitVec.getLsbD_ushiftRight]
    by_cases h : d ≤ q
    · rw [decide_eq_true h, Bool.true_and,
        show d + (c.wordBits - 1 - q) = c.wordBits - 1 - (q - d) by omega]
    · rw [decide_eq_false h, Bool.false_and, BitVec.getLsbD_of_ge _ _ (by omega)]
  sbit_earlier v d q hq := by
    simp only [sbit, phys, BitVec.getLsbD_shiftLeft]
    by_cases h : q + d < c.wordBits
    · rw [decide_eq_true h, decide_eq_true (by omega), decide_eq_false (by omega),
        show c.wordBits - 1 - q - d = c.wordBits - 1 - (q + d) by omega]
      rfl
    · rw [decide_eq_false h, decide_eq_true (p := c.wordBits - 1 - q < d) (by omega), Bool.not_true,
        Bool.and_false, Bool.false_and, Bool.false_and]

/-- Little-unit / little-bit: stream offset `q` is register bit `q`. -/
theorem movesStream_ll (c : Config) :
    MovesStream c .ll (lowBits c.wordBits) (· <<< ·) (· >>> ·) where
  sbit_mask k hk q _ := by rw [sbit, phys, getLsbD_lowBits hk]
  sbit_later v d q hq := by
    simp only [sbit, phys, BitVec.getLsbD_shiftLeft, decide_eq_true hq, Bool.true_and]
    rw [← decide_not, decide_eq_decide.mpr Nat.not_lt]
  sbit_earlier v d q hq := by
    simp only [sbit, phys, BitVec.getLsbD_ushiftRight]
    by_cases h : q + d < c.wordBits
    · rw [decide_eq_true h, Bool.true_and, Nat.add_comm]
    · rw [decide_eq_false h, Bool.false_and, BitVec.getLsbD_of_ge _ _ (by omega)]

@[simp] theorem sbit_and {c : Config} (cv : Conv) (v w : BitVec c.wordBits) (q : Nat) :
    sbit c cv (v &&& w) q = (sbit c cv v q && sbit c cv w q) := BitVec.getLsbD_and

@[simp] theorem sbit_or {c : Config} (cv : Conv) (v w : BitVec c.wordBits) (q : Nat) :
    sbit c cv (v ||| w) q = (sbit c cv v q || sbit c cv w q) := BitVec.getLsbD_or

section
variable {c : Config} {cv : Conv} {mask : Nat → BitVec c.wordBits}
  {later earlier : BitVec c.wordBits → Nat → BitVec c.wordBits}

/-- The cursor's word: the masked operand, moved to the offset, merged after the committed bits. -/
theorem MovesStream.placeHere_keepStream_eq (h : MovesStream c cv mask later earlier)
    (old w : BitVec c.wordBits) {o k : Nat} (ho : o ≤ c.wordBits) (hk : k ≤ c.wordBits) :
    placeHere c cv (keepStream c cv old o) w o k = old &&& mask o ||| later (w &&& mask k) o := by
  refine eq_of_sbit_eq cv fun q hq => ?_
  rw [sbit_placeHere_keepStream cv old w k ho hq, sbit_or, sbit_and, h.sbit_mask o ho q hq,
    h.sbit_later _ o q hq, sbit_and, h.sbit_mask k hk _ (by omega)]
  by_cases hold : q < o
  · simp [hold, Nat.not_le_of_lt hold]
  · by_cases hnew : q < o + k
    · simp [hold, hnew, Nat.le_of_not_lt hold, show q - o < k by omega]
    · simp [hold, hnew, show ¬ q - o < k by omega]

/-- The word after it on a spill: what the masked operand has beyond the cursor's word. -/
theorem MovesStream.placeNext_eq (h : MovesStream c cv mask later earlier)
    (w : BitVec c.wordBits) {o k : Nat} (ho : o ≤ c.wordBits) (hk : k ≤ c.wordBits) :
    placeNext c cv w o k = earlier (w &&& mask k) (c.wordBits - o) := by
  refine eq_of_sbit_eq cv fun q hq => ?_
  rw [sbit_placeNext cv w (by omega) ho hq, h.sbit_earlier _ _ q hq, sbit_and,
    show q + c.wordBits - o = q + (c.wordBits - o) by omega]
  by_cases hnew : q + c.wordBits < o + k
  · have hin : q + (c.wordBits - o) < c.wordBits := by omega
    rw [h.sbit_mask k hk _ hin]
    simp [hnew, hin, show q + (c.wordBits - o) < k by omega]
  · by_cases hin : q + (c.wordBits - o) < c.wordBits
    · rw [h.sbit_mask k hk _ hin]
      simp [hnew, show ¬ q + (c.wordBits - o) < k by omega]
    · simp [hnew, hin]

/-- The last lines of R81 and R84: inject the first `k` stream bits of `WDATA` by masks and shifts. -/
def maskShiftInject (mask : Nat → BitVec c.wordBits)
    (later earlier : BitVec c.wordBits → Nat → BitVec c.wordBits) (k : Nat) (r : Regs c) : Regs c :=
  let i := r.SEEN.toNat / c.wordBits
  let o := r.SEEN.toNat % c.wordBits
  let w := r.WDATA &&& mask k
  let B' := r.B.setIfInBounds i (blockWord r.B i &&& mask o ||| later w o)
  { r with
    B := if c.wordBits < o + k then B'.setIfInBounds (i + 1) (earlier w (c.wordBits - o)) else B',
    SEEN := r.SEEN + BitVec.ofNat 16 k }

theorem MovesStream.injectWord_eq (h : MovesStream c cv mask later earlier) {k : Nat} {r : Regs c}
    (hk : k ≤ c.wordBits) (hfit : r.SEEN.toNat + k ≤ c.blockBits)
    (hroom : r.SEEN.toNat ≠ c.blockBits) :
    injectWord cv r.WDATA k r = maskShiftInject mask later earlier k r := by
  have ho : r.SEEN.toNat % c.wordBits ≤ c.wordBits := (Nat.mod_lt _ c.wf.1).le
  rw [injectWord, if_neg (by omega), if_neg hroom]
  dsimp only
  rw [h.placeHere_keepStream_eq _ _ ho hk, h.placeNext_eq _ ho hk, BitVec.ofNat_add,
    BitVec.ofNat_toNat, BitVec.setWidth_eq]
  rfl

end

/-- The whole rule of R81 and R84: the range check, the saturation guard, then masks and shifts. -/
theorem exec_injw_eq_maskShiftInject {cv : Conv} (k : Nat) (s : State)
    {mask : Nat → BitVec s.cfg.wordBits}
    {later earlier : BitVec s.cfg.wordBits → Nat → BitVec s.cfg.wordBits}
    (h : MovesStream s.cfg cv mask later earlier) :
    exec (.injw cv k) s = .next (
      if s.cfg.wordBits < k then s.setRegs (raiseFault .kRange s.regs)
      else if s.cfg.blockBits < s.regs.SEEN.toNat + k ∨ s.regs.SEEN.toNat = s.cfg.blockBits then s
      else s.setRegs (maskShiftInject mask later earlier k s.regs)) := by
  rw [exec_injw]
  split_ifs with hrange hfull
  · rw [injwCommand_of_gt cv s.regs hrange]
  · rw [injwCommand_of_le cv s.regs (by omega), injectWord_of_full cv _ k s.regs hfull, setRegs_self]
  · rw [injwCommand_of_le cv s.regs (by omega), h.injectWord_eq (by omega) (by omega) (by omega)]

/-- The bit count of a command stands in the low half of its word as it is (30_encoding.md R60). -/
theorem commandWord_eq_or_count (op : BitVec 4) (conv : BitVec 2) {k : Nat} (hk : k < 2 ^ 16) :
    commandWord op conv k = commandWord op conv 0 ||| BitVec.ofNat 32 k := by
  have hcount : (BitVec.ofNat 16 k).setWidth 32 = BitVec.ofNat 32 k :=
    BitVec.eq_of_toNat_eq (by
      rw [BitVec.toNat_setWidth, BitVec.toNat_ofNat, BitVec.toNat_ofNat, Nat.mod_eq_of_lt hk])
  simp [commandWord, hcount]

/-- Settles O19: under big-unit / big-bit order a right shift moves the stream bits later. -/
theorem injwBBIsMaskAndShift : Obligations.InjwBBIsMaskAndShift := by
  constructor
  · intro k hk
    rw [encode, commandWord_eq_or_count 0x1 (convCode .bb) hk,
      (by decide : commandWord 0x1 (convCode .bb) 0 = 0x10000000#32)]
  · intro k s
    exact exec_injw_eq_maskShiftInject k s (movesStream_bb s.cfg)

/-- Settles O20: under little-unit / little-bit order a left shift moves the stream bits later. -/
theorem injwLLIsMaskAndShift : Obligations.InjwLLIsMaskAndShift := by
  constructor
  · intro k hk
    rw [encode, commandWord_eq_or_count 0x1 (convCode .ll) hk,
      (by decide : commandWord 0x1 (convCode .ll) 0 = 0x1C000000#32)]
  · intro k s
    exact exec_injw_eq_maskShiftInject k s (movesStream_ll s.cfg)

/-! ## Clearing the block -/

/-- Settles O23: `BCLR` writes the block of zeros. -/
theorem bclrEmptiesTheBlock : Obligations.BclrEmptiesTheBlock := by
  refine ⟨by decide, fun s => ?_⟩
  exact ⟨Vector.replicate s.cfg.blockWords 0, exec_bclr s, blockWord_replicate_zero s.cfg⟩

end Sys2Proof.Machine
end

section
/-! Proofs about the decoder (30_encoding.md R60 to R65): a word that decodes is the word of its
command, so a word that is none of the fourteen commands records `ILLEGAL_CMD` (60_exceptions.md
R122, O10). -/

namespace Sys2Proof

/-- A word whose bits 25:16 are 0 is put together again from its three other fields (R60). -/
theorem commandWord_of_fields {w : Command} (hzero : zeroField w = 0) :
    commandWord (opField w) (convField w) (kField w).toNat = w := by
  refine BitVec.eq_of_getLsbD_eq fun j hj => ?_
  simp only [commandWord, BitVec.ofNat_toNat, BitVec.setWidth_eq, BitVec.getLsbD_or,
    BitVec.getLsbD_shiftLeft, BitVec.getLsbD_setWidth, opField, convField, kField,
    BitVec.getLsbD_extractLsb', hj, decide_true, Bool.true_and]
  by_cases hk : j < 16
  · simp [hk, show j < 26 by omega, show j < 28 by omega]
  by_cases hz : j < 26
  · have hbit : w.getLsbD j = false := by
      have hfield : (zeroField w).getLsbD (j - 16) = false := by simp [hzero]
      simpa [zeroField, show j - 16 < 10 by omega, show 16 + (j - 16) = j by omega] using hfield
    simp [hk, hz, hbit, show j < 28 by omega]
  by_cases hc : j < 28
  · simp [hk, hz, hc, show j - 26 < 2 by omega, show 26 + (j - 26) = j by omega,
      show j - 26 < 32 by omega]
  · simp [hk, hz, hc, show ¬ j - 26 < 2 by omega, show j - 28 < 4 by omega,
      show 28 + (j - 28) = j by omega, show j - 28 < 32 by omega]

theorem convCode_convOfCode (b : BitVec 2) : convCode (convOfCode b) = b := by
  revert b; decide

theorem encode_injw (cv : Conv) (k : Nat) :
    encode (.injw cv k) = commandWord 0x1#4 (convCode cv) k := by cases cv <;> rfl

theorem encode_injb (cv : Conv) (k : Nat) :
    encode (.injb cv k) = commandWord 0x2#4 (convCode cv) k := by cases cv <;> rfl

@[simp] theorem count_injw (cv : Conv) (k : Nat) : (Instr.injw cv k).count = k := by cases cv <;> rfl

@[simp] theorem count_injb (cv : Conv) (k : Nat) : (Instr.injb cv k).count = k := by cases cv <;> rfl

theorem decodePlain_eq_ok_iff {i j : Instr} {w : Command} :
    decodePlain i w = .ok j ↔ convField w = 0 ∧ kField w = 0 ∧ i = j := by
  unfold decodePlain
  split_ifs with hconv hcount <;> simp_all

/-- The six operations that use neither `conv` nor `k`, whose fields must then be 0 (R65). -/
theorem encode_eq_of_decodePlain {i j : Instr} {op : BitVec 4} {w : Command} (hzero : zeroField w = 0)
    (hop : opField w = op) (hcount : i.count = 0) (hword : encode i = commandWord op 0 0)
    (hdec : decodePlain i w = .ok j) : j.WellFormed ∧ encode j = w := by
  obtain ⟨hconv, hk, rfl⟩ := decodePlain_eq_ok_iff.mp hdec
  have hfields := commandWord_of_fields hzero
  rw [hop, hconv, hk] at hfields
  exact ⟨by rw [Instr.WellFormed, hcount]; decide, hword.trans hfields⟩

/-- A word that decodes is the word of its command: one case for each row of R64. -/
theorem encode_eq_of_decode {w : Command} {i : Instr} (hdec : decode w = .ok i) :
    i.WellFormed ∧ encode i = w := by
  unfold decode at hdec
  split_ifs at hdec with hzero hinjw hinjb hbclr hlinit hadvr hadvf hgenc hgent
  all_goals rw [not_not] at hzero
  · obtain rfl := Except.ok.inj hdec
    refine ⟨by rw [Instr.WellFormed, count_injw]; exact (kField w).isLt, ?_⟩
    rw [encode_injw, convCode_convOfCode, ← hinjw, commandWord_of_fields hzero]
  · obtain rfl := Except.ok.inj hdec
    refine ⟨by rw [Instr.WellFormed, count_injb]; exact (kField w).isLt, ?_⟩
    rw [encode_injb, convCode_convOfCode, ← hinjb, commandWord_of_fields hzero]
  · exact encode_eq_of_decodePlain hzero hbclr rfl rfl hdec
  · exact encode_eq_of_decodePlain hzero hlinit rfl rfl hdec
  · exact encode_eq_of_decodePlain hzero hadvr rfl rfl hdec
  · exact encode_eq_of_decodePlain hzero hadvf rfl rfl hdec
  · exact encode_eq_of_decodePlain hzero hgenc rfl rfl hdec
  · exact encode_eq_of_decodePlain hzero hgent rfl rfl hdec

namespace Machine

theorem issueCommand_of_unencoded {word : Command}
    (h : ∀ i : Instr, i.WellFormed → encode i ≠ word) (s : State) :
    issueCommand word s = .next (s.setRegs (raiseFault .illegalCmd s.regs)) := by
  unfold issueCommand
  cases hdec : decode word with
  | ok i =>
    obtain ⟨hwf, hword⟩ := encode_eq_of_decode hdec
    exact absurd hword (h i hwf)
  | error e => rfl

theorem hostWrite_cmd (v : Nat) (s : State) :
    hostWrite 0 v s = issueCommand (BitVec.ofNat 32 v) s := rfl

/-- Settles O10: the decoder accepts the words of well-formed commands only. -/
theorem unencodedWordRecordsIllegalCmd : Obligations.UnencodedWordRecordsIllegalCmd := by
  intro s v rest hin hnone
  rw [step_of_write hin, hostWrite_cmd, issueCommand_of_unencoded hnone]
  rfl

end Machine

end Sys2Proof
end

section
/-! Proofs about the faults of a command the hardware knows (60_exceptions.md R123 to R125): a bit
count out of range (O13), a busy generator (O14), unusable parameters (O15). -/

namespace Sys2Proof.Machine

/-! ## `K_RANGE` -/

/-- Settles O13: the range check of `INJW` comes before the cursor is looked at, and a block injection
writes `B` and `SEEN` only. -/
theorem overlongWordInjectionFaults : Obligations.OverlongWordInjectionFaults := by
  constructor
  · intro cv k s hk
    rw [exec_injw, injwCommand_of_gt cv s.regs hk]
  · intro cv k s
    obtain ⟨B', seen, hblock⟩ := injectBlock_frame cv k s.regs
    exact ⟨_, exec_injb cv k s, by rw [setRegs_regs, hblock]⟩

/-! ## The three outcomes of an issue (42_lfsr_generator.md R104) -/

theorem issue_of_busy {c : Config} (g : GenOp) {r : Regs c} (hbusy : r.STATUS.gbusy = true) :
    issue g r = raiseFault .genBusy r := if_pos hbusy

theorem issue_of_unusable {c : Config} {g : GenOp} {r : Regs c} (hidle : r.STATUS.gbusy = false)
    (hparams : ¬ paramsUsable g r = true) : issue g r = raiseFault .genParam r := by
  simp [issue, hidle, hparams]

/-- What an accepted issue leaves in `STATUS` and `GOP`: no fault is recorded. -/
theorem issue_of_usable {c : Config} {g : GenOp} {r : Regs c} (hidle : r.STATUS.gbusy = false)
    (hparams : paramsUsable g r = true) :
    (issue g r).STATUS.fault = r.STATUS.fault ∧ (issue g r).STATUS.gbusy = true ∧
      (issue g r).GOP = some g := by
  cases hclear : clearsRcv g <;> simp [issue, hidle, hparams, hclear]

/-! ## `GEN_BUSY` -/

/-- The generator's parameter registers (10_state.md R24, R25). -/
def RegName.isParameter : RegName → Bool
  | .n | .t | .rf | .rp | .p => true
  | .cmd | .status | .seen | .wdata | .lfsr | .idx | .b _ | .src _ | .rc _ => false

theorem regName_parameter (c : Config) {rn : RegNum} (h : rn ∈ ([4, 5, 6, 7, 8] : List RegNum)) :
    ∃ x, regName c rn = some x ∧ x.isParameter = true := by
  simp only [List.mem_cons, List.not_mem_nil, or_false] at h
  rcases h with rfl | rfl | rfl | rfl | rfl
  · exact ⟨.n, rfl, rfl⟩
  · exact ⟨.t, rfl, rfl⟩
  · exact ⟨.rf, rfl, rfl⟩
  · exact ⟨.rp, rfl, rfl⟩
  · exact ⟨.p, rfl, rfl⟩

theorem writeRegister_parameter_of_busy {c : Config} {x : RegName} (hx : x.isParameter = true)
    (v : Nat) {r : Regs c} (hbusy : r.STATUS.gbusy = true) :
    writeRegister v r x = raiseFault .genBusy r := by
  cases x with
  | n | t | rf | rp | p => exact if_pos hbusy
  | cmd | status | seen | wdata | lfsr | idx | b | src | rc => cases hx

theorem hostWrite_parameter_of_busy {rn : RegNum} (hrn : rn ∈ ([4, 5, 6, 7, 8] : List RegNum))
    (v : Nat) {s : State} (hbusy : s.regs.STATUS.gbusy = true) :
    hostWrite rn v s = .next (s.setRegs (raiseFault .genBusy s.regs)) := by
  obtain ⟨x, hname, hx⟩ := regName_parameter s.cfg hrn
  have hcmd : x ≠ .cmd := by rintro rfl; cases hx
  simp [hostWrite, hname, writeRegister_parameter_of_busy hx v hbusy]

/-- Each of the five generator commands is an issue. -/
theorem exec_generatorCommand {i : Instr} (hi : i ∈ [Instr.linit, .advr, .advf, .genc, .gent])
    (s : State) : ∃ g, exec i s = .next (s.setRegs (issue g s.regs)) := by
  simp only [List.mem_cons, List.not_mem_nil, or_false] at hi
  rcases hi with rfl | rfl | rfl | rfl | rfl
  · exact ⟨.linit, rfl⟩
  · exact ⟨.advr, rfl⟩
  · exact ⟨.advf, rfl⟩
  · exact ⟨.genc, rfl⟩
  · exact ⟨.gent, rfl⟩

/-- Settles O14: an issue and a parameter write look at `GBUSY` first. -/
theorem busyGeneratorDropsCommandsAndWrites : Obligations.BusyGeneratorDropsCommandsAndWrites := by
  intro s hbusy
  constructor
  · intro i hi
    obtain ⟨g, hexec⟩ := exec_generatorCommand hi s
    rw [hexec, issue_of_busy g hbusy]
  · intro rn v rest hrn hin
    rw [step_of_write hin, hostWrite_parameter_of_busy (s := { s with inputs := rest }) hrn v hbusy]
    rfl

/-! ## `GEN_PARAM` -/

theorem one_le_toNat_iff {w : Nat} (v : BitVec w) : 1 ≤ v.toNat ↔ v ≠ 0 :=
  Nat.one_le_iff_ne_zero.trans (BitVec.toNat_ne_iff_ne (y := 0#w))

theorem paramsUsable_genc_iff {c : Config} (r : Regs c) :
    paramsUsable .genc r = true ↔
      r.N ≠ 0 ∧ r.N.toNat ≤ c.nmax ∧ r.P ≠ 0 ∧ r.IDX.toNat < c.rcDepth := by
  simp only [paramsUsable, decide_eq_true_eq, one_le_toNat_iff]

theorem paramsUsable_gent_iff {c : Config} (r : Regs c) :
    paramsUsable .gent r = true ↔
      r.N ≠ 0 ∧ r.N.toNat ≤ c.nmax ∧ r.P ≠ 0 ∧
        (r.RF.toNat + r.RP.toNat) * r.T.toNat ≤ c.rcDepth := by
  simp only [paramsUsable, decide_eq_true_eq, one_le_toNat_iff]

/-- A table of no columns or no rounds is empty, so it fits every `RC`. -/
theorem tableSize_le_of_empty_or_fits {c : Config} {r : Regs c}
    (h : r.T = 0 ∨ r.RF.toNat + r.RP.toNat = 0 ∨
      (r.RF.toNat + r.RP.toNat) * r.T.toNat ≤ c.rcDepth) :
    (r.RF.toNat + r.RP.toNat) * r.T.toNat ≤ c.rcDepth := by
  rcases h with hT | hrounds | hfits
  · simp [hT]
  · simp [hrounds]
  · exact hfits

/-- Settles O15: the unusable parameters are those the check at issue does not pass. -/
theorem unusableParametersFault : Obligations.UnusableParametersFault := by
  intro s hidle
  refine ⟨fun hbad => ?_, fun hbad => ?_, fun hN hNmax hP => ⟨fun hIDX => ?_, fun htable => ?_⟩⟩
  · have hparams : ¬ paramsUsable .genc s.regs = true := by
      simpa only [paramsUsable_genc_iff, not_and_or, not_not, not_le, not_lt] using hbad
    rw [exec_genc, issue_of_unusable hidle hparams]
  · have hparams : ¬ paramsUsable .gent s.regs = true := by
      simpa only [paramsUsable_gent_iff, not_and_or, not_not, not_le, not_lt] using hbad
    rw [exec_gent, issue_of_unusable hidle hparams]
  · exact ⟨_, exec_genc s,
      issue_of_usable hidle ((paramsUsable_genc_iff _).mpr ⟨hN, hNmax, hP, hIDX⟩)⟩
  · exact ⟨_, exec_gent s, issue_of_usable hidle ((paramsUsable_gent_iff _).mpr
      ⟨hN, hNmax, hP, tableSize_le_of_empty_or_fits htable⟩)⟩

end Sys2Proof.Machine
end

section
/-! Proofs about the encoder (30_encoding.md R60 to R64): the fields of a command's word, so decoding
it gives the command back (O6), a decoded word lies in its row of the table (O7), and a write of `CMD`
runs the decoded command (O9). -/

namespace Sys2Proof

/-! ## The fields of a command's word -/

theorem opField_commandWord (op : BitVec 4) (conv : BitVec 2) (k : Nat) :
    opField (commandWord op conv k) = op := by
  refine BitVec.eq_of_getLsbD_eq fun j hj => ?_
  simp only [opField, commandWord, BitVec.getLsbD_extractLsb', BitVec.getLsbD_or,
    BitVec.getLsbD_shiftLeft, BitVec.getLsbD_setWidth]
  rw [BitVec.getLsbD_of_ge conv _ (by omega), BitVec.getLsbD_of_ge (BitVec.ofNat 16 k) _ (by omega),
    Nat.add_sub_cancel_left]
  simp [hj, show 28 + j < 32 by omega, show j < 32 by omega]

theorem convField_commandWord (op : BitVec 4) (conv : BitVec 2) (k : Nat) :
    convField (commandWord op conv k) = conv := by
  refine BitVec.eq_of_getLsbD_eq fun j hj => ?_
  simp only [convField, commandWord, BitVec.getLsbD_extractLsb', BitVec.getLsbD_or,
    BitVec.getLsbD_shiftLeft, BitVec.getLsbD_setWidth]
  rw [BitVec.getLsbD_of_ge (BitVec.ofNat 16 k) _ (by omega), Nat.add_sub_cancel_left]
  simp [hj, show 26 + j < 28 by omega, show 26 + j < 32 by omega, show j < 32 by omega]

theorem zeroField_commandWord (op : BitVec 4) (conv : BitVec 2) (k : Nat) :
    zeroField (commandWord op conv k) = 0 := by
  refine BitVec.eq_of_getLsbD_eq fun j hj => ?_
  simp only [zeroField, commandWord, BitVec.getLsbD_extractLsb', BitVec.getLsbD_or,
    BitVec.getLsbD_shiftLeft, BitVec.getLsbD_setWidth]
  rw [BitVec.getLsbD_of_ge (BitVec.ofNat 16 k) _ (by omega)]
  simp [show 16 + j < 28 by omega, show 16 + j < 26 by omega]

theorem kField_commandWord (op : BitVec 4) (conv : BitVec 2) (k : Nat) :
    kField (commandWord op conv k) = BitVec.ofNat 16 k := by
  refine BitVec.eq_of_getLsbD_eq fun j hj => ?_
  simp only [kField, commandWord, BitVec.getLsbD_extractLsb', BitVec.getLsbD_or,
    BitVec.getLsbD_shiftLeft, BitVec.getLsbD_setWidth, Nat.zero_add]
  simp [hj, show j < 28 by omega, show j < 26 by omega, show j < 32 by omega]

/-! ## Decoding a command's word -/

theorem convOfCode_convCode (cv : Conv) : convOfCode (convCode cv) = cv := by cases cv <;> rfl

theorem toNat_kField_commandWord (op : BitVec 4) (conv : BitVec 2) {k : Nat} (hk : k < 2 ^ 16) :
    (kField (commandWord op conv k)).toNat = k := by
  rw [kField_commandWord, BitVec.toNat_ofNat, Nat.mod_eq_of_lt hk]

theorem decode_encode_injw (cv : Conv) {k : Nat} (hk : k < 2 ^ 16) :
    decode (encode (.injw cv k)) = .ok (.injw cv k) := by
  simp [encode_injw, decode, zeroField_commandWord, opField_commandWord, convField_commandWord,
    toNat_kField_commandWord _ _ hk, convOfCode_convCode]

theorem decode_encode_injb (cv : Conv) {k : Nat} (hk : k < 2 ^ 16) :
    decode (encode (.injb cv k)) = .ok (.injb cv k) := by
  simp [encode_injb, decode, zeroField_commandWord, opField_commandWord, convField_commandWord,
    toNat_kField_commandWord _ _ hk, convOfCode_convCode]

/-- The six commands without convention and count have one word each, which the decoder is run on. -/
theorem decode_encode {i : Instr} (hwf : i.WellFormed) : decode (encode i) = .ok i := by
  cases i with
  | injwBB k => exact decode_encode_injw .bb hwf
  | injwLB k => exact decode_encode_injw .lb hwf
  | injwBL k => exact decode_encode_injw .bl hwf
  | injwLL k => exact decode_encode_injw .ll hwf
  | injbBB k => exact decode_encode_injb .bb hwf
  | injbLB k => exact decode_encode_injb .lb hwf
  | injbBL k => exact decode_encode_injb .bl hwf
  | injbLL k => exact decode_encode_injb .ll hwf
  | bclr | linit | advr | advf | genc | gent => decide

/-- Settles O6: each field of a command's word holds what the encoder put there. -/
theorem decodeOfEncodeIsTheCommand : Obligations.DecodeOfEncodeIsTheCommand :=
  fun _ hwf => decode_encode hwf

/-! ## The table of R64 -/

theorem encode_and_tableMask (i : Instr) : encode i &&& tableMask i = tableMatch i := by
  cases i with
  | injwBB k => exact Laws.TableRow.injwBB k
  | injwLB k => exact Laws.TableRow.injwLB k
  | injwBL k => exact Laws.TableRow.injwBL k
  | injwLL k => exact Laws.TableRow.injwLL k
  | injbBB k => exact Laws.TableRow.injbBB k
  | injbLB k => exact Laws.TableRow.injbLB k
  | injbBL k => exact Laws.TableRow.injbBL k
  | injbLL k => exact Laws.TableRow.injbLL k
  | bclr => exact Laws.TableRow.bclr
  | linit => exact Laws.TableRow.linit
  | advr => exact Laws.TableRow.advr
  | advf => exact Laws.TableRow.advf
  | genc => exact Laws.TableRow.genc
  | gent => exact Laws.TableRow.gent

/-- Settles O7: a word that decodes is the word of its command, and that lies in its row. -/
theorem decodedWordIsItsEncoding : Obligations.DecodedWordIsItsEncoding := by
  intro w i hdec
  obtain ⟨hwf, rfl⟩ := encode_eq_of_decode hdec
  exact ⟨hwf, rfl, encode_and_tableMask i⟩

/-- Settles O8: the decoder run on the twelve words. -/
theorem specWordsDecode : Obligations.SpecWordsDecode := by
  unfold Obligations.SpecWordsDecode
  decide

namespace Machine

/-! ## A write of `CMD` -/

theorem hostWrite_cmd_of_decode {v : Nat} {i : Instr} (hdec : decode (BitVec.ofNat 32 v) = .ok i)
    (s : State) : hostWrite 0 v s = exec i s := by
  rw [hostWrite_cmd, issueCommand, hdec]

theorem hostWrite_cmd_encode {i : Instr} (hwf : i.WellFormed) (s : State) :
    hostWrite 0 (encode i).toNat s = exec i s :=
  hostWrite_cmd_of_decode (by rw [BitVec.ofNat_toNat, BitVec.setWidth_eq, decode_encode hwf]) s

/-- Settles O9: both writes of `CMD` carry a word that decodes; the second is a command's own. -/
theorem commandWriteRunsTheDecodedCommand : Obligations.CommandWriteRunsTheDecodedCommand := by
  constructor
  · intro s v rest i hin hdec
    rw [step_of_write hin, hostWrite_cmd_of_decode hdec]
  · intro s i hwf
    have hin : (s.withFetchWord 32 (encode i).toNat).inputs =
        .host (.write 0 (encode i).toNat) :: s.inputs := by
      simp [State.withFetchWord, queueCommand, Nat.mod_eq_of_lt (encode i).isLt]
    exact (step_of_write hin).trans (hostWrite_cmd_encode hwf s)

end Machine

end Sys2Proof
end

section
/-! Proofs about the generator's pure functions (42_lfsr_generator.md R101 to R103): the raw advance
(O30), the filtered advance (O31), a candidate (O32), and the rejection loop (O33). -/

namespace Sys2Proof.Machine

/-! ## The raw advance -/

theorem advanceRaw_zero : advanceRaw 0 = 0 := by decide

theorem getLsbD_zero_lfsr (i : Nat) : (0 : LfsrWord).getLsbD i = false := BitVec.getLsbD_zero

/-- Register bits 78:0 and bit 79 decide the register. -/
theorem lfsr_eq_zero {S : LfsrWord} (hlow : ∀ i < 79, S.getLsbD i = false)
    (htop : S.getLsbD 79 = false) : S = 0 := by
  refine BitVec.eq_of_getLsbD_eq fun i hi => ?_
  rw [getLsbD_zero_lfsr]
  rcases Nat.lt_or_eq_of_le (Nat.le_of_lt_succ hi) with hi | rfl
  · exact hlow i hi
  · exact htop

/-- Where bits 78:0 are 0 the new bit of an advance is bit 79. -/
theorem feedbackBit_of_low_zero {S : LfsrWord} (hlow : ∀ i < 79, S.getLsbD i = false) :
    feedbackBit S = S.getLsbD 79 := by
  simp only [feedbackBit, hlow 66 (by omega), hlow 56 (by omega), hlow 41 (by omega),
    hlow 28 (by omega), hlow 17 (by omega), Bool.xor_false]

theorem feedbackBit_xor (a b : LfsrWord) :
    feedbackBit (a ^^^ b) = (feedbackBit a ^^ feedbackBit b) := by
  simp only [feedbackBit, BitVec.getLsbD_xor, Bool.xor_assoc, Bool.xor_left_comm]

theorem advanceRaw_xor (a b : LfsrWord) : advanceRaw (a ^^^ b) = advanceRaw a ^^^ advanceRaw b := by
  refine BitVec.eq_of_getLsbD_eq fun i hi => ?_
  rw [BitVec.getLsbD_xor, getLsbD_advanceRaw _ i hi, getLsbD_advanceRaw _ i hi,
    getLsbD_advanceRaw _ i hi]
  split_ifs
  · exact feedbackBit_xor a b
  · exact BitVec.getLsbD_xor

/-- Only 0 advances to 0: bits 78:0 move up, and bit 79 is then the new bit. -/
theorem eq_zero_of_advanceRaw_eq_zero {S : LfsrWord} (h : advanceRaw S = 0) : S = 0 := by
  have hbit : ∀ i < 80, (if i = 0 then feedbackBit S else S.getLsbD (i - 1)) = false := by
    intro i hi
    rw [← getLsbD_advanceRaw S i hi, h, getLsbD_zero_lfsr]
  have hlow : ∀ i < 79, S.getLsbD i = false := fun i hi => hbit (i + 1) (by omega)
  exact lfsr_eq_zero hlow (feedbackBit_of_low_zero hlow ▸ hbit 0 (by omega))

theorem advanceRaw_ne_zero {S : LfsrWord} (h : S ≠ 0) : advanceRaw S ≠ 0 :=
  fun h0 => h (eq_zero_of_advanceRaw_eq_zero h0)

/-- Settles O30: linearity turns injectivity into `eq_zero_of_advanceRaw_eq_zero`. -/
theorem advanceRawIsALinearBijection : Obligations.AdvanceRawIsALinearBijection := by
  have hinj : Function.Injective advanceRaw := by
    intro a b hab
    refine BitVec.xor_eq_zero_iff.mp (eq_zero_of_advanceRaw_eq_zero ?_)
    rw [advanceRaw_xor, hab]
    exact BitVec.xor_self
  exact ⟨getLsbD_advanceRaw, Finite.injective_iff_bijective.mp hinj, advanceRaw_zero, advanceRaw_xor⟩

/-! ## Raw advances repeated -/

theorem iterate_advanceRaw_zero (m : Nat) : advanceRaw^[m] 0 = 0 :=
  Function.iterate_fixed advanceRaw_zero m

theorem iterate_advanceRaw_ne_zero (m : Nat) {S : LfsrWord} (h : S ≠ 0) : advanceRaw^[m] S ≠ 0 := by
  induction m with
  | zero => exact h
  | succ m ih =>
    rw [Function.iterate_succ_apply']
    exact advanceRaw_ne_zero ih

/-- A bit that has not reached the top yet moves up by one at each advance. -/
theorem getLsbD_iterate_advanceRaw (S : LfsrWord) {m i : Nat} (hm : m ≤ i) (hi : i < 80) :
    (advanceRaw^[m] S).getLsbD i = S.getLsbD (i - m) := by
  induction m generalizing i with
  | zero => rfl
  | succ m ih =>
    rw [Function.iterate_succ_apply', getLsbD_advanceRaw _ i hi, if_neg (by omega),
      ih (by omega) (by omega), Nat.sub_sub, Nat.add_comm]

/-- The bound of R102. A set bit below the top reaches it within 79 advances; where only bit 79 is
set, the first advance enters it at bit 0, which reaches the top 79 advances later. -/
theorem exists_iterate_advanceRaw_top {S : LfsrWord} (h : S ≠ 0) :
    ∃ m, 1 ≤ m ∧ m ≤ 80 ∧ (advanceRaw^[m] S).getLsbD 79 = true := by
  by_cases hlow : ∃ i < 79, S.getLsbD i = true
  · obtain ⟨i, hi, hset⟩ := hlow
    refine ⟨79 - i, by omega, by omega, ?_⟩
    rw [getLsbD_iterate_advanceRaw S (by omega) (by omega), Nat.sub_sub_self (by omega), hset]
  · have hzero : ∀ i < 79, S.getLsbD i = false := by simpa using hlow
    have htop : S.getLsbD 79 = true :=
      Bool.eq_true_of_not_eq_false fun hnot => h (lfsr_eq_zero hzero hnot)
    refine ⟨80, by omega, le_rfl, ?_⟩
    rw [Function.iterate_succ_apply, getLsbD_iterate_advanceRaw _ le_rfl (by omega),
      getLsbD_advanceRaw _ _ (by omega), if_pos (Nat.sub_self 79), feedbackBit_of_low_zero hzero, htop]

/-! ## The filtered advance -/

theorem filterLoop_of_first {fuel m : Nat} {S : LfsrWord} (hm : m < fuel)
    (hbefore : ∀ j < m, (advanceRaw^[j + 1] S).getLsbD 79 = false)
    (htop : (advanceRaw^[m + 1] S).getLsbD 79 = true) :
    filterLoop fuel S = some (advanceRaw^[m + 2] S) := by
  induction m generalizing fuel S with
  | zero =>
    obtain ⟨fuel, rfl⟩ := Nat.exists_eq_succ_of_ne_zero (by omega : fuel ≠ 0)
    exact if_pos htop
  | succ m ih =>
    obtain ⟨fuel, rfl⟩ := Nat.exists_eq_succ_of_ne_zero (by omega : fuel ≠ 0)
    have hfirst : ¬ (advanceRaw S).getLsbD 79 = true := by simpa using hbefore 0 (by omega)
    exact (if_neg hfirst).trans
      (ih (by omega) (fun j hj => hbefore (j + 1) (by omega)) htop)

theorem ne_zero_of_iterate_top {S : LfsrWord} {m : Nat}
    (h : (advanceRaw^[m] S).getLsbD 79 = true) : S ≠ 0 := by
  rintro rfl
  rw [iterate_advanceRaw_zero, getLsbD_zero_lfsr] at h
  cases h

theorem advanceFiltered_eq_some_iff (S S' : LfsrWord) :
    advanceFiltered S = some S' ↔
      ∃ m, 1 ≤ m ∧ (advanceRaw^[m] S).getLsbD 79 = true ∧
        (∀ j, 1 ≤ j → j < m → (advanceRaw^[j] S).getLsbD 79 = false) ∧
        S' = advanceRaw^[m + 1] S := by
  constructor
  · intro h
    obtain ⟨m, _, hbefore, htop, rfl⟩ := filterLoop_eq_some h
    refine ⟨m + 1, by omega, htop, fun j h1 hj => ?_, rfl⟩
    obtain ⟨j, rfl⟩ := Nat.exists_eq_add_of_le' h1
    exact hbefore j (by omega)
  · rintro ⟨m, h1, htop, hbefore, rfl⟩
    obtain ⟨b, hb1, hb80, hbtop⟩ := exists_iterate_advanceRaw_top (ne_zero_of_iterate_top htop)
    have hmb : m ≤ b := by
      by_contra hlt
      exact Bool.false_ne_true ((hbefore b hb1 (by omega)).symm.trans hbtop)
    obtain ⟨m, rfl⟩ := Nat.exists_eq_add_of_le' h1
    exact filterLoop_of_first (by omega) (fun j hj => hbefore (j + 1) (by omega) (by omega)) htop

theorem advanceFiltered_zero : advanceFiltered 0 = none := by
  rw [Option.eq_none_iff_forall_ne_some]
  intro S' h
  obtain ⟨m, _, htop, _⟩ := (advanceFiltered_eq_some_iff 0 S').mp h
  exact ne_zero_of_iterate_top htop rfl

/-- A filtered advance of a register that is not 0: the first of at most 80 advances that sets
bit 79, and one more. -/
theorem advanceFiltered_of_ne_zero {S : LfsrWord} (h : S ≠ 0) :
    ∃ m, 1 ≤ m ∧ m ≤ 80 ∧ (∀ j, 1 ≤ j → j < m → (advanceRaw^[j] S).getLsbD 79 = false) ∧
      (advanceRaw^[m] S).getLsbD 79 = true ∧ advanceFiltered S = some (advanceRaw^[m + 1] S) := by
  have hex : ∃ m, 1 ≤ m ∧ (advanceRaw^[m] S).getLsbD 79 = true := by
    obtain ⟨m, h1, _, htop⟩ := exists_iterate_advanceRaw_top h
    exact ⟨m, h1, htop⟩
  obtain ⟨h1, htop⟩ := Nat.find_spec hex
  obtain ⟨b, hb1, hb80, hbtop⟩ := exists_iterate_advanceRaw_top h
  have hbefore : ∀ j, 1 ≤ j → j < Nat.find hex → (advanceRaw^[j] S).getLsbD 79 = false := by
    intro j hj1 hj
    exact Bool.eq_false_of_not_eq_true fun hset => Nat.find_min hex hj ⟨hj1, hset⟩
  exact ⟨Nat.find hex, h1, (Nat.find_min' hex ⟨hb1, hbtop⟩).trans hb80, hbefore, htop,
    (advanceFiltered_eq_some_iff S _).mpr ⟨_, h1, htop, hbefore, rfl⟩⟩

theorem advanceFiltered_eq_none_iff (S : LfsrWord) : advanceFiltered S = none ↔ S = 0 := by
  constructor
  · intro hnone
    by_contra hS
    obtain ⟨_, _, _, _, _, hsome⟩ := advanceFiltered_of_ne_zero hS
    cases hnone.symm.trans hsome
  · rintro rfl
    exact advanceFiltered_zero

theorem ne_zero_of_advanceFiltered {S S' : LfsrWord} (h : advanceFiltered S = some S') : S' ≠ 0 := by
  obtain ⟨m, _, htop, _, rfl⟩ := (advanceFiltered_eq_some_iff S S').mp h
  exact iterate_advanceRaw_ne_zero _ (ne_zero_of_iterate_top htop)

/-- Settles O31: 80 checks are the whole range of the loop. -/
theorem advanceFilteredStopsAtFirstSetBit : Obligations.AdvanceFilteredStopsAtFirstSetBit :=
  ⟨advanceFiltered_eq_some_iff, advanceFiltered_eq_none_iff, fun _ h => exists_iterate_advanceRaw_top h⟩

/-! ## A candidate -/

/-- The register after `b` filtered advances from `S` on. -/
def filteredTimes (S : LfsrWord) : Nat → LfsrWord
  | 0 => S
  | b + 1 => (advanceFiltered (filteredTimes S b)).getD 0

theorem filteredTimes_ne_zero {S : LfsrWord} (h : S ≠ 0) (b : Nat) : filteredTimes S b ≠ 0 := by
  induction b with
  | zero => exact h
  | succ b ih =>
    obtain ⟨m, _, _, _, _, hadv⟩ := advanceFiltered_of_ne_zero ih
    rw [filteredTimes, hadv]
    exact iterate_advanceRaw_ne_zero _ ih

theorem advanceFiltered_filteredTimes {S : LfsrWord} (h : S ≠ 0) (b : Nat) :
    advanceFiltered (filteredTimes S b) = some (filteredTimes S (b + 1)) := by
  obtain ⟨m, _, _, _, _, hadv⟩ := advanceFiltered_of_ne_zero (filteredTimes_ne_zero h b)
  rw [filteredTimes, hadv, Option.getD_some]

/-- The advances after the first one are those of the register it leaves. -/
theorem filteredTimes_filteredTimes_one (S : LfsrWord) (b : Nat) :
    filteredTimes (filteredTimes S 1) b = filteredTimes S (b + 1) := by
  induction b with
  | zero => rfl
  | succ b ih => rw [filteredTimes, ih, ← filteredTimes]

/-- The bits are appended below the bits of `acc`, the first one highest. -/
theorem candidateFrom_of_ne_zero (n acc : Nat) {S : LfsrWord} (h : S ≠ 0) :
    ∃ k < 2 ^ n, candidateFrom n acc S = some (filteredTimes S n, 2 ^ n * acc + k) ∧
      ∀ b < n, k.testBit (n - 1 - b) = (filteredTimes S (b + 1)).getLsbD 79 := by
  induction n generalizing acc S with
  | zero => exact ⟨0, by simp, by simp [candidateFrom, filteredTimes], by simp⟩
  | succ n ih =>
    obtain ⟨k, hk, heq, hbits⟩ :=
      ih (2 * acc + ((filteredTimes S 1).getLsbD 79).toNat) (filteredTimes_ne_zero h 1)
    have hbit := Bool.toNat_le ((filteredTimes S 1).getLsbD 79)
    have hfirst : advanceFiltered S = some (filteredTimes S 1) := advanceFiltered_filteredTimes h 0
    refine ⟨2 ^ n * ((filteredTimes S 1).getLsbD 79).toNat + k, ?_, ?_, fun b hb => ?_⟩
    · calc 2 ^ n * ((filteredTimes S 1).getLsbD 79).toNat + k < 2 ^ n * 1 + 2 ^ n :=
            Nat.add_lt_add_of_le_of_lt (Nat.mul_le_mul_left _ hbit) hk
        _ = 2 ^ (n + 1) := by omega
    · rw [candidateFrom, hfirst]
      dsimp only
      rw [heq, filteredTimes_filteredTimes_one]
      congr 2
      ring
    · rw [Nat.testBit_two_pow_mul_add _ hk]
      rcases b with _ | b
      · rw [if_neg (by omega), show n + 1 - 1 - 0 - n = 0 by omega, Nat.testBit_zero]
        cases (filteredTimes S 1).getLsbD 79 <;> rfl
      · rw [if_pos (by omega), show n + 1 - 1 - (b + 1) = n - 1 - b by omega, hbits b (by omega),
          filteredTimes_filteredTimes_one]

/-- Settles O32: the registers named are those after each filtered advance. -/
theorem candidateBitsAreMsbFirst : Obligations.CandidateBitsAreMsbFirst := by
  intro n S hS
  obtain ⟨k, hk, heq, hbits⟩ := candidateFrom_of_ne_zero n 0 hS
  refine ⟨filteredTimes S n, k, filteredTimes S, by simpa using heq, hk, rfl, rfl, fun b hb => ?_⟩
  exact ⟨advanceFiltered_filteredTimes hS b, hbits b hb⟩

/-! ## The rejection loop -/

/-- The candidate after the one in hand: only the register it left matters. -/
def nextCandidate (n : Nat) (o : Option (LfsrWord × Nat)) : Option (LfsrWord × Nat) :=
  o.bind fun x => candidateFrom n 0 x.1

/-- After `j` candidates from `S` on: the register and the last candidate. -/
def candidates (S : LfsrWord) (n j : Nat) : Option (LfsrWord × Nat) :=
  (nextCandidate n)^[j] (some (S, 0))

theorem candidates_succ (S : LfsrWord) (n j : Nat) :
    candidates S n (j + 1) = nextCandidate n (candidates S n j) :=
  Function.iterate_succ_apply' ..

/-- The candidates after the first one are those of the register it leaves. -/
theorem candidates_succ_of_first {S S' : LfsrWord} {n k : Nat}
    (h : candidateFrom n 0 S = some (S', k)) (j : Nat) :
    candidates S n (j + 2) = candidates S' n (j + 1) := by
  induction j with
  | zero => simp [candidates, nextCandidate, h]
  | succ j ih => rw [candidates_succ, ih, ← candidates_succ]

theorem candidates_eq_none_of_first {S : LfsrWord} {n : Nat} (h : candidateFrom n 0 S = none) (j : Nat) :
    candidates S n (j + 1) = none := by
  induction j with
  | zero => exact h
  | succ j ih => rw [candidates_succ, ih, nextCandidate, Option.bind_none]

/-- Candidate `j + 1` is the first one below `p`, and it is `x`. -/
def FirstBelow (S : LfsrWord) (n p : Nat) (x : LfsrWord × Nat) (j : Nat) : Prop :=
  candidates S n (j + 1) = some x ∧ x.2 < p ∧
    ∀ i < j, ∃ y, candidates S n (i + 1) = some y ∧ p ≤ y.2

theorem firstBelow_zero_iff {S : LfsrWord} {n p : Nat} {x : LfsrWord × Nat} :
    FirstBelow S n p x 0 ↔ candidateFrom n 0 S = some x ∧ x.2 < p := by
  simp [FirstBelow, candidates, nextCandidate]

theorem firstBelow_succ_iff {S S' : LfsrWord} {n p k : Nat} {x : LfsrWord × Nat} {j : Nat}
    (h : candidateFrom n 0 S = some (S', k)) :
    FirstBelow S n p x (j + 1) ↔ p ≤ k ∧ FirstBelow S' n p x j := by
  have hfirst : candidates S n 1 = some (S', k) := h
  unfold FirstBelow
  rw [candidates_succ_of_first h]
  constructor
  · rintro ⟨hx, hlt, hbefore⟩
    refine ⟨?_, hx, hlt, fun i hi => ?_⟩
    · obtain ⟨y, hy, hpy⟩ := hbefore 0 (by omega)
      obtain rfl := Option.some.inj (hfirst.symm.trans hy)
      exact hpy
    · rw [← candidates_succ_of_first h]
      exact hbefore (i + 1) (by omega)
  · rintro ⟨hpk, hx, hlt, hbefore⟩
    refine ⟨hx, hlt, fun i hi => ?_⟩
    rcases i with _ | i
    · exact ⟨_, hfirst, hpk⟩
    · rw [candidates_succ_of_first h]
      exact hbefore i (by omega)

/-- The loop with fuel finds the first candidate below `p` among the first `fuel` ones. -/
theorem rejectionLoop_eq_some_iff {fuel : Nat} {S : LfsrWord} {n p : Nat} {x : LfsrWord × Nat} :
    rejectionLoop fuel S n p = some x ↔ ∃ j < fuel, FirstBelow S n p x j := by
  induction fuel generalizing S with
  | zero => simp [rejectionLoop]
  | succ fuel ih =>
    rw [rejectionLoop]
    cases hcand : candidateFrom n 0 S with
    | none =>
      simp [FirstBelow, candidates_eq_none_of_first hcand]
    | some y =>
      obtain ⟨S', k⟩ := y
      rw [Nat.exists_lt_succ_left, firstBelow_zero_iff, hcand]
      simp only [firstBelow_succ_iff hcand]
      by_cases hk : k < p
      · simp only [hk, if_true, Option.some.injEq, Nat.not_le_of_lt hk, false_and, and_false,
          exists_false, or_false]
        exact ⟨fun h => ⟨h, h ▸ hk⟩, And.left⟩
      · have hreject : ¬ (some (S', k) = some x ∧ x.2 < p) := by
          rintro ⟨hx, hlt⟩
          obtain rfl := Option.some.inj hx
          exact hk hlt
        simp only [hk, if_false, hreject, false_or, ih, Nat.le_of_not_lt hk, true_and]

/-- Where two candidates leave the same register, the candidates after them are the same. -/
theorem candidates_add_of_fst_eq {S : LfsrWord} {n a b : Nat} {x y : LfsrWord × Nat}
    (hx : candidates S n a = some x) (hy : candidates S n b = some y) (h : x.1 = y.1) (t : Nat) :
    candidates S n (a + t + 1) = candidates S n (b + t + 1) := by
  induction t with
  | zero => simp [candidates_succ, hx, hy, nextCandidate, h]
  | succ t ih =>
    calc candidates S n (a + (t + 1) + 1) = nextCandidate n (candidates S n (a + t + 1)) :=
          candidates_succ ..
      _ = nextCandidate n (candidates S n (b + t + 1)) := congrArg _ ih
      _ = candidates S n (b + (t + 1) + 1) := (candidates_succ ..).symm

theorem FirstBelow.exists_some {S : LfsrWord} {n p : Nat} {x : LfsrWord × Nat} {j : Nat}
    (h : FirstBelow S n p x j) {a : Nat} (ha : a ≤ j) : ∃ y, candidates S n a = some y := by
  rcases a with _ | a
  · exact ⟨_, rfl⟩
  · obtain ⟨y, hy, _⟩ := h.2.2 a (by omega)
    exact ⟨y, hy⟩

/-- No register repeats before the first candidate below `p`: the loop would never have ended. -/
theorem FirstBelow.fst_ne {S : LfsrWord} {n p : Nat} {x : LfsrWord × Nat} {j a b : Nat}
    (h : FirstBelow S n p x j) (hab : a < b) (hb : b ≤ j) {y z : LfsrWord × Nat}
    (hy : candidates S n a = some y) (hz : candidates S n b = some z) : y.1 ≠ z.1 := by
  intro heq
  obtain ⟨hx, hlt, hbefore⟩ := h
  have hrepeat := candidates_add_of_fst_eq hy hz heq (j - b)
  rw [show b + (j - b) + 1 = j + 1 by omega, hx] at hrepeat
  obtain ⟨u, hu, hpu⟩ := hbefore (a + (j - b)) (by omega)
  obtain rfl := Option.some.inj (hrepeat.symm.trans hu)
  omega

/-- The number the register holds after `a` candidates. -/
def candidateRegister (S : LfsrWord) (n a : Nat) : Nat :=
  ((candidates S n a).map fun y => y.1.toNat).getD 0

theorem candidateRegister_of_some {S : LfsrWord} {n a : Nat} {y : LfsrWord × Nat}
    (h : candidates S n a = some y) : candidateRegister S n a = y.1.toNat := by
  rw [candidateRegister, h, Option.map_some, Option.getD_some]

/-- The registers before each of the first `j + 1` candidates differ, so there are at most `2^80`. -/
theorem FirstBelow.lt {S : LfsrWord} {n p : Nat} {x : LfsrWord × Nat} {j : Nat}
    (h : FirstBelow S n p x j) : j < 2 ^ 80 := by
  by_contra hj
  have hmaps : Set.MapsTo (candidateRegister S n) (Finset.range (j + 1)) (Finset.range (2 ^ 80)) := by
    intro a ha
    obtain ⟨y, hy⟩ := h.exists_some (Nat.le_of_lt_succ (Finset.mem_range.mp ha))
    rw [Finset.mem_coe, Finset.mem_range, candidateRegister_of_some hy]
    exact y.1.isLt
  have hcard : (Finset.range (2 ^ 80)).card < (Finset.range (j + 1)).card := by
    rw [Finset.card_range, Finset.card_range]
    omega
  have hinj : ∀ a b, a < b → b ≤ j → candidateRegister S n a ≠ candidateRegister S n b := by
    intro a b hab hb heq
    obtain ⟨y, hy⟩ := h.exists_some (hab.le.trans hb)
    obtain ⟨z, hz⟩ := h.exists_some hb
    rw [candidateRegister_of_some hy, candidateRegister_of_some hz] at heq
    exact h.fst_ne hab hb hy hz (BitVec.eq_of_toNat_eq heq)
  obtain ⟨a, ha, b, hb, hne, heq⟩ := Finset.exists_ne_map_eq_of_card_lt_of_maps_to hcard hmaps
  rw [Finset.mem_range] at ha hb
  rcases Nat.lt_or_gt_of_ne hne with hab | hba
  · exact hinj a b hab (by omega) heq
  · exact hinj b a hba (by omega) heq.symm

theorem nextConstant_eq_some_iff {S : LfsrWord} {n p : Nat} {x : LfsrWord × Nat} :
    nextConstant S n p = some x ↔ ∃ j, FirstBelow S n p x j :=
  rejectionLoop_eq_some_iff.trans
    ⟨fun ⟨j, _, h⟩ => ⟨j, h⟩, fun ⟨j, h⟩ => ⟨j, h.lt, h⟩⟩

/-- Settles O33: the search of `2^80` candidates reaches every first candidate below `p`. -/
theorem nextConstantHasNoIterationCap : Obligations.NextConstantHasNoIterationCap :=
  fun _ _ _ _ _ => nextConstant_eq_some_iff

/-! ## Registers that are 0 and that are not -/

theorem candidateFrom_ne_zero {n acc k : Nat} {S S' : LfsrWord} (hS : S ≠ 0)
    (h : candidateFrom n acc S = some (S', k)) : S' ≠ 0 := by
  obtain ⟨_, _, heq, _⟩ := candidateFrom_of_ne_zero n acc hS
  obtain rfl : filteredTimes S n = S' := (Prod.ext_iff.mp (Option.some.inj (heq.symm.trans h))).1
  exact filteredTimes_ne_zero hS n

theorem nextConstant_ne_zero {n p k : Nat} {S S' : LfsrWord} (hS : S ≠ 0)
    (h : nextConstant S n p = some (S', k)) : S' ≠ 0 := by
  obtain ⟨j, hj, _⟩ := nextConstant_eq_some_iff.mp h
  have hstays : ∀ i x, candidates S n i = some x → x.1 ≠ 0 := by
    intro i
    induction i with
    | zero =>
      intro x hx
      obtain rfl := Option.some.inj hx
      exact hS
    | succ i ih =>
      intro x hx
      rw [candidates_succ, nextCandidate, Option.bind_eq_some_iff] at hx
      obtain ⟨y, hy, hx⟩ := hx
      exact candidateFrom_ne_zero (ih y hy) hx
  exact hstays _ _ hj

/-- From 0 on no candidate of at least one bit is ever completed. -/
theorem nextConstant_zero {n : Nat} (p : Nat) (hn : 1 ≤ n) : nextConstant 0 n p = none := by
  obtain ⟨n, rfl⟩ := Nat.exists_eq_add_of_le' hn
  rw [Option.eq_none_iff_forall_ne_some]
  intro x h
  obtain ⟨j, hj, _⟩ := nextConstant_eq_some_iff.mp h
  have hnone : candidateFrom (n + 1) 0 0 = none := by simp only [candidateFrom, advanceFiltered_zero]
  cases (candidates_eq_none_of_first hnone j).symm.trans hj

end Sys2Proof.Machine
end

section
/-! Proofs about the step: what a host action and a step can do to the registers, said once
(`HostChange`, `StepChange`), the reset (O1 to O3), and the invariant of the state (O4, O5). -/

namespace Sys2Proof.Machine

/-! ## The status of an accepted command -/

/-- `STATUS` after the issue of `g` was accepted: `GBUSY` set, `RCV` cleared by some (R104). -/
def Status.issued (st : Status) (g : GenOp) : Status :=
  if clearsRcv g then (st.setGbusy true).setRcv false else st.setGbusy true

@[simp] theorem Status.gbusy_issued (st : Status) (g : GenOp) : (st.issued g).gbusy = true := by
  unfold Status.issued; split <;> simp

@[simp] theorem Status.fault_issued (st : Status) (g : GenOp) : (st.issued g).fault = st.fault := by
  unfold Status.issued; split <;> simp

@[simp] theorem Status.cause_issued (st : Status) (g : GenOp) : (st.issued g).cause = st.cause := by
  unfold Status.issued; split <;> simp

@[simp] theorem Status.rcv_issued (st : Status) (g : GenOp) :
    (st.issued g).rcv = (st.rcv && !clearsRcv g) := by
  unfold Status.issued; cases clearsRcv g <;> simp

theorem issue_of_accepted {c : Config} {g : GenOp} {r : Regs c} (hidle : r.STATUS.gbusy = false)
    (husable : paramsUsable g r = true) :
    issue g r = { r with STATUS := r.STATUS.issued g, GOP := some g } := by
  simp [issue, hidle, husable, Status.issued]

/-! ## What a host action can do to the registers -/

/-- What the host action `a` can leave of the registers `r`: one case for each way a register changes. -/
inductive HostChange {c : Config} (a : HostAction) (r : Regs c) : Regs c → Prop
  /-- a read of a register -/
  | unchanged : HostChange a r r
  /-- a read of an unspecified value (20_memory.md R52) -/
  | drawn : HostChange a r { r with draws := r.draws + 1 }
  /-- a fault (60_exceptions.md R120) -/
  | faulted (cause : Cause) : HostChange a r (raiseFault cause r)
  /-- an injection: the cursor moves forward, and not out of the block -/
  | injected (B' : Vector (BitVec c.wordBits) c.blockWords) (n : BitVec 16)
      (hforward : r.SEEN.toNat ≤ n.toNat) (hinside : n.toNat ≤ max r.SEEN.toNat c.blockBits) :
      HostChange a r { r with B := B', SEEN := n }
  /-- `BCLR` -/
  | cleared (v : Nat) (ha : a = .write 0 v) (hdec : decode (BitVec.ofNat 32 v) = .ok .bclr) :
      HostChange a r { r with B := Vector.replicate c.blockWords 0, SEEN := 0 }
  /-- an accepted generator command -/
  | accepted (g : GenOp) (hidle : r.STATUS.gbusy = false) (husable : paramsUsable g r = true) :
      HostChange a r { r with STATUS := r.STATUS.issued g, GOP := some g }
  /-- a write of `WDATA` -/
  | wroteData (w : BitVec c.wordBits) : HostChange a r { r with WDATA := w }
  /-- a write of a word of `SRC` -/
  | wroteSource (i : Nat) (w : BitVec c.wordBits) (hi : i < c.blockWords) :
      HostChange a r { r with SRC := Memory.write r.SRC i w }
  /-- a write of a parameter -/
  | wroteParameter (hidle : r.STATUS.gbusy = false) (n t : BitVec 12) (rf rp : BitVec 10)
      (p : BitVec c.nmax) : HostChange a r { r with N := n, T := t, RF := rf, RP := rp, P := p }

theorem hostChange_injectWord {c : Config} (a : HostAction) (cv : Conv) (w : BitVec c.wordBits) (k : Nat)
    (r : Regs c) : HostChange a r (injectWord cv w k r) := by
  obtain ⟨B', n, heq⟩ := injectWord_frame cv w k r
  have hseen := injectWord_seen cv w k r
  rw [heq] at hseen ⊢
  dsimp only at hseen
  split_ifs at hseen
  · exact .injected B' n (by omega) (by omega)
  · exact .injected B' n (by omega) (by omega)

theorem hostChange_injectBlock {c : Config} (a : HostAction) (cv : Conv) (k : Nat) (r : Regs c) :
    HostChange a r (injectBlock cv k r) := by
  obtain ⟨B', n, heq⟩ := injectBlock_frame cv k r
  have hseen := injectBlock_seen cv k r
  rw [heq] at hseen ⊢
  dsimp only at hseen
  split_ifs at hseen
  · exact .injected B' n (by omega) (by omega)
  · exact .injected B' n (by omega) (by omega)

theorem hostChange_injwCommand {c : Config} (a : HostAction) (cv : Conv) (k : Nat) (r : Regs c) :
    HostChange a r (injwCommand cv k r) := by
  rcases injwCommand_cases cv k r with ⟨_, h⟩ | ⟨_, h⟩ <;> rw [h]
  · exact .faulted .kRange
  · exact hostChange_injectWord a cv _ k r

theorem hostChange_issue {c : Config} (a : HostAction) (g : GenOp) (r : Regs c) :
    HostChange a r (issue g r) := by
  rcases issue_cases g r with ⟨_, h⟩ | ⟨_, _, h⟩ | ⟨hidle, husable, _⟩
  · exact h ▸ .faulted .genBusy
  · exact h ▸ .faulted .genParam
  · exact issue_of_accepted hidle husable ▸ .accepted g hidle husable

/-- A command, issued by the write of `CMD` that carries its word. -/
theorem hostChange_exec {v : Nat} {i : Instr} (hdec : decode (BitVec.ofNat 32 v) = .ok i) (s : State) :
    ∃ r', exec i s = .next (s.setRegs r') ∧ HostChange (.write 0 v) s.regs r' := by
  obtain ⟨r', heq, ⟨cv, k, rfl⟩ | ⟨cv, k, rfl⟩ | ⟨rfl, rfl⟩ | ⟨g, rfl⟩⟩ := exec_cases i s
  · exact ⟨_, heq, hostChange_injwCommand _ cv k s.regs⟩
  · exact ⟨_, heq, hostChange_injectBlock _ cv k s.regs⟩
  · exact ⟨_, heq, .cleared v rfl hdec⟩
  · exact ⟨_, heq, hostChange_issue _ g s.regs⟩

/-- The number of a register (20_memory.md R40). -/
def RegName.number : RegName → Nat
  | .cmd => 0x0
  | .status => 0x1
  | .seen => 0x2
  | .wdata => 0x3
  | .n => 0x4
  | .t => 0x5
  | .rf => 0x6
  | .rp => 0x7
  | .p => 0x8
  | .lfsr => 0x9
  | .idx => 0xA
  | .b i => 0x10000 + i
  | .src i => 0x20000 + i
  | .rc i => 0x1000000 + i

/-- The index of an array's register lies in the array. -/
def RegName.inMap (c : Config) : RegName → Prop
  | .b i | .src i => i < c.blockWords
  | .rc i => i < c.rcDepth
  | .cmd | .status | .seen | .wdata | .n | .t | .rf | .rp | .p | .lfsr | .idx => True

/-- `x` is a register of the map and `rn` is its number. -/
def RegName.IsAt (c : Config) (rn : RegNum) (x : RegName) : Prop := x.number = rn.toNat ∧ x.inMap c

/-- One row of the map: what holds of the row's register and of the later rows' holds. -/
theorem forall_of_ite_some {α : Type} {p : Prop} [Decidable p] {P : α → Prop} {x : α} {o : Option α}
    (hrow : p → P x) (hlater : ∀ y, o = some y → P y) :
    ∀ y, (if p then some x else o) = some y → P y := by
  intro y h
  by_cases hp : p
  · rw [if_pos hp] at h
    exact Option.some.inj h ▸ hrow hp
  · exact hlater y (by rwa [if_neg hp] at h)

/-- The map names each register by its own number, row by row. -/
theorem isAt_of_regName {c : Config} {rn : RegNum} :
    ∀ x, regName c rn = some x → x.IsAt c rn := by
  have hscalar : ∀ x : RegName, x.inMap c → rn.toNat = x.number → x.IsAt c rn :=
    fun x hin h => ⟨h.symm, hin⟩
  have harray : ∀ (x : RegName) (lo n : Nat), (rn.toNat - lo < n → x.inMap c) →
      x.number = lo + (rn.toNat - lo) → lo ≤ rn.toNat ∧ rn.toNat < lo + n → x.IsAt c rn :=
    fun x lo n hin hx h => ⟨by omega, hin (by omega)⟩
  unfold regName
  exact
    forall_of_ite_some (hscalar .cmd trivial) <| forall_of_ite_some (hscalar .status trivial) <|
    forall_of_ite_some (hscalar .seen trivial) <| forall_of_ite_some (hscalar .wdata trivial) <|
    forall_of_ite_some (hscalar .n trivial) <| forall_of_ite_some (hscalar .t trivial) <|
    forall_of_ite_some (hscalar .rf trivial) <| forall_of_ite_some (hscalar .rp trivial) <|
    forall_of_ite_some (hscalar .p trivial) <| forall_of_ite_some (hscalar .lfsr trivial) <|
    forall_of_ite_some (hscalar .idx trivial) <|
    forall_of_ite_some (harray (.b _) 0x10000 c.blockWords id rfl) <|
    forall_of_ite_some (harray (.src _) 0x20000 c.blockWords id rfl) <|
    forall_of_ite_some (harray (.rc _) 0x1000000 c.rcDepth id rfl) fun _ h => nomatch h

/-- Only register number 0 is `CMD` (20_memory.md R40). -/
theorem eq_zero_of_regName_cmd {c : Config} {rn : RegNum} (h : regName c rn = some .cmd) : rn = 0 :=
  BitVec.eq_of_toNat_eq (isAt_of_regName _ h).1.symm

theorem lt_of_regName_src {c : Config} {rn : RegNum} {i : Nat} (h : regName c rn = some (.src i)) :
    i < c.blockWords := (isAt_of_regName _ h).2

theorem hostChange_writeRegister {c : Config} {rn : RegNum} {x : RegName} (hx : regName c rn = some x)
    (a : HostAction) (v : Nat) (r : Regs c) : HostChange a r (writeRegister v r x) := by
  rcases writeRegister_cases v r x with
    h | ⟨cause, h⟩ | ⟨w, h⟩ | ⟨i, w, rfl, h⟩ | ⟨hidle, n, t, rf, rp, p, h⟩ <;> rw [h]
  · exact .unchanged
  · exact .faulted cause
  · exact .wroteData w
  · exact .wroteSource i w (lt_of_regName_src hx)
  · exact .wroteParameter hidle n t rf rp p

theorem hostChange_hostWrite (rn : RegNum) (v : Nat) (s : State) :
    ∃ r', hostWrite rn v s = .next (s.setRegs r') ∧ HostChange (.write rn v) s.regs r' := by
  unfold hostWrite
  split
  case h_1 => exact ⟨_, rfl, .faulted .badAccess⟩
  case h_2 hcmd =>
    obtain rfl := eq_zero_of_regName_cmd hcmd
    unfold issueCommand
    split
    case h_1 i hdec => exact hostChange_exec hdec s
    case h_2 => exact ⟨_, rfl, .faulted .illegalCmd⟩
  case h_3 x _ hx => exact ⟨_, rfl, hostChange_writeRegister hx _ v s.regs⟩

theorem hostChange_hostRead (rn : RegNum) (s : State) :
    ∃ r' rd, hostRead rn s = { s with regs := r', rdata := rd } ∧ HostChange (.read rn) s.regs r' := by
  rcases hostRead_cases rn s with h | ⟨w, h⟩ | ⟨x, h⟩
  · exact ⟨_, _, h, .faulted .badAccess⟩
  · exact ⟨_, _, h, .drawn⟩
  · exact ⟨_, _, h, .unchanged⟩

/-! ## What a step can do to the registers -/

/-- What the step with next event `e` (`none` where no input is left) can leave of the registers `r`. -/
inductive StepChange {c : Config} (r : Regs c) : Option Event → Regs c → Prop
  | turn (e : Option Event) (he : e = none ∨ e = some .generatorTurn) : StepChange r e (complete r)
  | host (a : HostAction) (r' : Regs c) (h : HostChange a r r') : StepChange r (some (.host a)) r'
  | reset : StepChange r (some .reset) (Regs.reset c r.draws (r.epoch + 1))

theorem stepChange_step (s : State) :
    ∃ r' rd, step s = .next { s with regs := r', inputs := s.inputs.tail, rdata := rd } ∧
      StepChange s.regs s.inputs.head? r' := by
  rcases step_cases s with ⟨hin, hstep⟩ | ⟨e, rest, hin, hstep⟩ <;> rw [hstep, hin]
  · refine ⟨complete s.regs, s.rdata, ?_, .turn _ (.inl rfl)⟩
    rw [List.tail_nil, ← hin]
    rfl
  · cases e with
    | host a =>
      cases a with
      | read rn =>
        obtain ⟨r', rd, heq, hchange⟩ := hostChange_hostRead rn { s with inputs := rest }
        exact ⟨r', rd, congrArg _ heq, .host _ r' hchange⟩
      | write rn v =>
        obtain ⟨r', heq, hchange⟩ := hostChange_hostWrite rn v { s with inputs := rest }
        exact ⟨r', s.rdata, heq, .host _ r' hchange⟩
    | generatorTurn => exact ⟨_, s.rdata, rfl, .turn _ (.inr rfl)⟩
    | reset => exact ⟨_, s.rdata, rfl, .reset⟩

/-- A step that answers `t` is not a reset: a completion step or a host action. -/
theorem complete_or_hostChange_of_step {s t : State} (hstep : step s = .next t)
    (hreset : ∀ rest, s.inputs ≠ .reset :: rest) :
    ∃ r' rd, t = { s with regs := r', inputs := s.inputs.tail, rdata := rd } ∧
      (r' = complete s.regs ∨ ∃ a, s.inputs.head? = some (.host a) ∧ HostChange a s.regs r') := by
  obtain ⟨r', rd, heq, hchange⟩ := stepChange_step s
  obtain rfl := Host.Outcome.next.inj (hstep.symm.trans heq)
  refine ⟨r', rd, rfl, ?_⟩
  generalize he : s.inputs.head? = e at hchange
  cases hchange with
  | turn => exact .inl rfl
  | host a _ h => exact .inr ⟨a, rfl, h⟩
  | reset =>
    obtain ⟨rest, hrest⟩ := List.head?_eq_some_iff.mp he
    exact absurd hrest (hreset rest)

/-- Settles O5: `stepChange_step` names the next state. -/
theorem stepRunsUnderOneConfiguration : Obligations.StepRunsUnderOneConfiguration := by
  intro s
  obtain ⟨r', rd, hstep, _⟩ := stepChange_step s
  exact ⟨_, hstep, rfl⟩

/-! ## Reset -/

/-- Settles O1: the reset values, a word of `SRC` or `RC` never written being the free value. -/
theorem resetHoldsSpecValues : Obligations.ResetHoldsSpecValues := by
  refine ⟨rfl, fun c d e => ⟨fun i => ?_, rfl, fun i => rfl, rfl, rfl, rfl, rfl, rfl, rfl, rfl,
    fun i => rfl, rfl, rfl, rfl⟩⟩
  rw [reset_B, blockWord_replicate_zero]

theorem step_of_reset {s : State} {rest : List Event} (hin : s.inputs = .reset :: rest) :
    step s = .next (resetEvent { s with inputs := rest }) := by
  simp [step, advance, hin, takeEvent]

/-- Settles O2: the reset event writes every register. -/
theorem resetEventResetsEverything : Obligations.ResetEventResetsEverything :=
  fun _ _ hin => step_of_reset hin

/-- The reset registers meet the invariant under every configuration. -/
theorem reset_good (c : Config) (d e : Nat) : (Regs.reset c d e).Good where
  seen_le := Nat.zero_le _
  idx_le := Nat.zero_le _
  reserved := (by decide : (0#32 &&& 0xFFFFFF08#32) = 0)
  cause_zero_iff := by simp [Status.cause, Status.fault]
  cause_le := (by decide : (Status.cause 0).toNat ≤ 5)
  gop_iff := by simp [Status.gbusy]
  pending := rfl
  src_wf := rfl
  src_below := rfl
  rc_wf := rfl
  rc_below := rfl

/-- Settles O3: `reset_good` at the configuration of `State.reset`. -/
theorem resetStateIsGood : Obligations.ResetStateIsGood := reset_good _ 0 0

/-! ## The invariant under host actions -/

theorem Regs.Good.gop_eq_none {c : Config} {r : Regs c} (hr : r.Good) (hidle : r.STATUS.gbusy = false) :
    r.GOP = none := by
  have hgop := hr.gop_iff
  rwa [hidle, Option.isSome_eq_false_iff, Option.isNone_iff_eq_none] at hgop

theorem pendingUsable_of_gop_none {c : Config} {r : Regs c} (h : r.GOP = none) :
    r.pendingUsable = true := by rw [Regs.pendingUsable, h]

/-- The check of a pending command reads `GOP`, `RCV`, the parameters and `IDX`. -/
theorem pendingUsable_congr {c : Config} {r r' : Regs c} (hgop : r'.GOP = r.GOP)
    (hrcv : r'.STATUS.rcv = r.STATUS.rcv) (hparams : ∀ g, paramsUsable g r' = paramsUsable g r) :
    r'.pendingUsable = r.pendingUsable := by
  simp only [Regs.pendingUsable, hgop, hrcv, hparams]

theorem paramsUsable_raiseFault {c : Config} (g : GenOp) (k : Cause) (r : Regs c) :
    paramsUsable g (raiseFault k r) = paramsUsable g r := by cases g <;> rfl

theorem raiseFault_good {c : Config} {r : Regs c} (k : Cause) (hr : r.Good) : (raiseFault k r).Good where
  seen_le := hr.seen_le
  idx_le := hr.idx_le
  reserved := Status.reservedZero_recordFault k hr.reserved
  cause_zero_iff := by
    cases hf : r.STATUS.fault
    · simpa [hf] using causeCode_pos k
    · simpa [hf] using hr.cause_zero_iff
  cause_le := by
    rw [raiseFault_STATUS, Status.cause_recordFault]
    split_ifs
    · exact hr.cause_le
    · exact causeCode_le k
  gop_iff := by simpa using hr.gop_iff
  pending := by
    rw [pendingUsable_congr (raiseFault_GOP k r) (Status.rcv_recordFault _ k)
      fun g => paramsUsable_raiseFault g k r, hr.pending]
  src_wf := hr.src_wf
  src_below := hr.src_below
  rc_wf := hr.rc_wf
  rc_below := hr.rc_below

theorem seen_good {c : Config} {r : Regs c} (B' : Vector (BitVec c.wordBits) c.blockWords)
    {n : BitVec 16} (hn : n.toNat ≤ c.blockBits) (hr : r.Good) :
    Regs.Good { r with B := B', SEEN := n } :=
  { hr with
    seen_le := hn
    pending := (pendingUsable_congr rfl rfl fun g => by cases g <;> rfl).trans hr.pending }

theorem Status.reservedZero_issued {st : Status} (g : GenOp) (h : st.reservedZero) :
    (st.issued g).reservedZero := by
  have hbusy : (st.setGbusy true).reservedZero := Status.reservedZero_setBit 0 true h (by omega)
  unfold Status.issued
  split
  · exact Status.reservedZero_setBit 1 false hbusy (by omega)
  · exact hbusy

theorem accepted_good {c : Config} {r : Regs c} {g : GenOp} (husable : paramsUsable g r = true)
    (hr : r.Good) : Regs.Good { r with STATUS := r.STATUS.issued g, GOP := some g } :=
  { hr with
    reserved := Status.reservedZero_issued g hr.reserved
    cause_zero_iff := by simpa using hr.cause_zero_iff
    cause_le := by simpa using hr.cause_le
    gop_iff := by simp
    pending := by
      have hparams : paramsUsable g { r with STATUS := r.STATUS.issued g, GOP := some g } = true := by
        rw [← husable]; cases g <;> rfl
      simp only [Regs.pendingUsable, hparams, Status.rcv_issued]
      cases clearsRcv g <;> simp }

/-- Every host action keeps the invariant. -/
theorem HostChange.good {c : Config} {a : HostAction} {r r' : Regs c} (h : HostChange a r r')
    (hr : r.Good) : r'.Good := by
  cases h with
  | unchanged => exact hr
  | drawn =>
    exact { hr with
      pending := (pendingUsable_congr rfl rfl fun g => by cases g <;> rfl).trans hr.pending }
  | faulted cause => exact raiseFault_good cause hr
  | injected B' n _ hinside => exact seen_good B' (hinside.trans (max_le hr.seen_le le_rfl)) hr
  | cleared => exact seen_good _ (Nat.zero_le _) hr
  | accepted g _ husable => exact accepted_good husable hr
  | wroteData w =>
    exact { hr with
      pending := (pendingUsable_congr rfl rfl fun g => by cases g <;> rfl).trans hr.pending }
  | wroteSource i w hi =>
    exact { hr with
      pending := (pendingUsable_congr rfl rfl fun g => by cases g <;> rfl).trans hr.pending
      src_wf := Memory.wf_write _ i w hr.src_wf
      src_below := Memory.below_write _ i w _ hr.src_below hi }
  | wroteParameter hidle => exact { hr with pending := pendingUsable_of_gop_none (hr.gop_eq_none hidle) }

/-! ## The invariant under completion -/

@[simp] theorem stepIdx_RC {c : Config} (r : Regs c) : (stepIdx r).RC = r.RC := by
  rcases stepIdx_cases r with ⟨_, heq⟩ | ⟨_, heq⟩ <;> rw [heq]

/-- The free value that `IDX` becomes past entry `2^23 - 1` is in range, since then
`RC_DEPTH = 2^23` (log 9). -/
theorem toNat_stepIdx_le {c : Config} {r : Regs c} (h : r.IDX.toNat < c.rcDepth) :
    (stepIdx r).IDX.toNat ≤ c.rcDepth := by
  rcases stepIdx_cases r with ⟨hfits, heq⟩ | ⟨hlast, heq⟩ <;> rw [heq]
  · change (r.IDX.toNat + 1) % 2 ^ 23 ≤ c.rcDepth
    rw [Nat.mod_eq_of_lt hfits]
    exact h
  · have hlt := (Config.freeBits 23 r.draws).isLt
    dsimp only
    omega

/-- What the effect of a generator command, where it is defined, leaves of the registers `r`. -/
inductive EffectOf {c : Config} (r : Regs c) : GenOp → Regs c → Prop
  | linit : EffectOf r .linit { r with LFSR := seeded r, IDX := 0 }
  | advr : EffectOf r .advr { r with LFSR := advanceRaw r.LFSR }
  | advf (S : LfsrWord) (h : advanceFiltered r.LFSR = some S) : EffectOf r .advf { r with LFSR := S }
  | genc (S : LfsrWord) (k : Nat) (h : nextConstant r.LFSR r.N.toNat r.P.toNat = some (S, k)) :
      EffectOf r .genc (stepIdx
        { r with LFSR := S, RC := Memory.write r.RC r.IDX.toNat (BitVec.ofNat c.nmax k) })
  | gent (S : LfsrWord) (rc : Memory c.nmax)
      (h : tableLoop (tableSize r) 0 (seeded r) r.N.toNat r.P.toNat r.RC = some (S, rc)) :
      EffectOf r .gent { r with
        LFSR := S, RC := rc, IDX := BitVec.ofNat 23 (tableSize r), STATUS := r.STATUS.setRcv true }

theorem advfEffect_eq_map {c : Config} (r : Regs c) :
    advfEffect r = (advanceFiltered r.LFSR).map fun S => { r with LFSR := S } := by
  unfold advfEffect
  cases advanceFiltered r.LFSR <;> rfl

theorem gencEffect_eq_map {c : Config} (r : Regs c) :
    gencEffect r = (nextConstant r.LFSR r.N.toNat r.P.toNat).map fun x => stepIdx
      { r with LFSR := x.1, RC := Memory.write r.RC r.IDX.toNat (BitVec.ofNat c.nmax x.2) } := by
  unfold gencEffect
  cases nextConstant r.LFSR r.N.toNat r.P.toNat <;> rfl

theorem gentEffect_eq_map {c : Config} (r : Regs c) :
    gentEffect r = (tableLoop (tableSize r) 0 (seeded r) r.N.toNat r.P.toNat r.RC).map fun x =>
      { r with LFSR := x.1, RC := x.2, IDX := BitVec.ofNat 23 (tableSize r),
               STATUS := r.STATUS.setRcv true } := by
  unfold gentEffect
  cases tableLoop (tableSize r) 0 (seeded r) r.N.toNat r.P.toNat r.RC <;> rfl

theorem effectOf_of_effect {c : Config} {g : GenOp} {r r' : Regs c} (heff : effect g r = some r') :
    EffectOf r g r' := by
  cases g with
  | linit =>
    obtain rfl := Option.some.inj heff
    exact .linit
  | advr =>
    obtain rfl := Option.some.inj heff
    exact .advr
  | advf =>
    rw [effect, advfEffect_eq_map, Option.map_eq_some_iff] at heff
    obtain ⟨S, hS, rfl⟩ := heff
    exact .advf S hS
  | genc =>
    rw [effect, gencEffect_eq_map, Option.map_eq_some_iff] at heff
    obtain ⟨⟨S, k⟩, hnext, rfl⟩ := heff
    exact .genc S k hnext
  | gent =>
    rw [effect, gentEffect_eq_map, Option.map_eq_some_iff] at heff
    obtain ⟨⟨S, rc⟩, hloop, rfl⟩ := heff
    exact .gent S rc hloop

/-- A table that was accepted fits `RC`, so `IDX` and the entries written stay in the table. -/
theorem EffectOf.inside {c : Config} {g : GenOp} {r r' : Regs c} (heff : EffectOf r g r')
    (husable : paramsUsable g r = true) (hr : r.Good) :
    r'.IDX.toNat ≤ c.rcDepth ∧ Memory.wf r'.RC = true ∧ Memory.below r'.RC c.rcDepth = true := by
  cases heff with
  | linit => exact ⟨Nat.zero_le _, hr.rc_wf, hr.rc_below⟩
  | advr | advf => exact ⟨hr.idx_le, hr.rc_wf, hr.rc_below⟩
  | genc S k =>
    obtain ⟨_, _, _, hidx⟩ := (paramsUsable_genc_iff r).mp husable
    rw [stepIdx_RC]
    exact ⟨toNat_stepIdx_le hidx, Memory.wf_write _ _ _ hr.rc_wf,
      Memory.below_write _ _ _ _ hr.rc_below hidx⟩
  | gent S rc hloop =>
    obtain ⟨_, _, _, htable⟩ := (paramsUsable_gent_iff r).mp husable
    have hrange : 0 + tableSize r ≤ c.rcDepth := (Nat.zero_add _).trans_le htable
    refine ⟨?_, tableLoop_wf hloop hr.rc_wf c.rcDepth hr.rc_below hrange⟩
    rw [BitVec.toNat_ofNat]
    exact (Nat.mod_le _ _).trans htable

/-- The completion step keeps the invariant. -/
theorem complete_good {c : Config} {r : Regs c} (hr : r.Good) : (complete r).Good := by
  rcases complete_cases r with ⟨g, r', _, hgop, heff, heq⟩ | ⟨_, heq⟩
  · have husable : paramsUsable g r = true := by
      have hpending := hr.pending
      rw [Regs.pendingUsable, hgop] at hpending
      exact (Bool.and_eq_true_iff.mp hpending).1
    obtain ⟨hidx, hwf, hbelow⟩ := (effectOf_of_effect heff).inside husable hr
    obtain ⟨L, rc, idx, d, rfl⟩ := effect_frame heff
    rw [heq]
    exact { hr with
      idx_le := hidx
      reserved := by
        refine Status.reservedZero_setBit 0 false ?_ (by omega)
        dsimp only
        split_ifs
        · exact Status.reservedZero_setBit 1 true hr.reserved (by omega)
        · exact hr.reserved
      cause_zero_iff := by
        have hcause := hr.cause_zero_iff
        dsimp only
        split_ifs <;> simpa using hcause
      cause_le := by
        have hcause := hr.cause_le
        dsimp only
        split_ifs <;> simpa using hcause
      gop_iff := by simp
      pending := rfl
      rc_wf := hwf
      rc_below := hbelow }
  · rw [heq]
    exact hr

/-- Settles O4: host actions, completions and resets each keep the invariant. -/
theorem stepKeepsGood : Obligations.StepKeepsGood := by
  intro s t hs hstep
  obtain ⟨r', rd, heq, hchange⟩ := stepChange_step s
  obtain rfl := Host.Outcome.next.inj (hstep.symm.trans heq)
  change r'.Good
  generalize s.inputs.head? = e at hchange
  cases hchange with
  | turn => exact complete_good hs
  | host _ _ h => exact h.good hs
  | reset => exact reset_good _ _ _

end Sys2Proof.Machine
end

section
/-! Proofs of what no step but a reset changes: the fault record (O11, O12), the cursor (O28), the
operands of a pending command (O29), an `LFSR` that is not 0 (O42); and of the end of a run
(70_reset_and_hazards.md R155; O43, O48). -/

namespace Sys2Proof.Machine

/-! ## The fault record -/

theorem Status.fault_eq_false_iff (st : Status) : st.fault = false ↔ st &&& 0x4#32 = 0 := by
  have hmask : ∀ j < 32, (0x4#32).getLsbD j = decide (j = 2) := by decide
  constructor
  · intro hf
    refine BitVec.eq_of_getLsbD_eq fun j hj => ?_
    rw [BitVec.getLsbD_and, hmask j hj]
    by_cases h2 : j = 2
    · subst h2
      rw [show st.getLsbD 2 = false from hf, Bool.false_and]
      rfl
    · rw [decide_eq_false h2, Bool.and_false]
      exact BitVec.getLsbD_zero.symm
  · intro hz
    have hbit : (st &&& 0x4#32).getLsbD 2 = false := by rw [hz]; rfl
    rwa [BitVec.getLsbD_and, hmask 2 (by omega), decide_eq_true rfl, Bool.and_true] at hbit

theorem Status.setFault_of_fault {st : Status} (hf : st.fault = true) : st.setFault true = st := by
  refine BitVec.eq_of_getLsbD_eq fun j _ => ?_
  rw [Status.setFault, getLsbD_setBit]
  split_ifs with h2
  · rw [h2.1]
    exact hf.symm
  · rfl

/-- The first fault writes its code and the bit; a later one leaves `STATUS` (60_exceptions.md R120). -/
theorem Status.recordFault_eq (st : Status) (cause : Cause) :
    st.recordFault cause =
      if st &&& 0x4#32 = 0 then
        st &&& ~~~0xF0#32 ||| (causeCode cause).setWidth 32 <<< 4 ||| 0x4#32
      else st := by
  rw [← if_congr (Status.fault_eq_false_iff st) rfl rfl, Status.recordFault]
  cases hf : st.fault with
  | false => rfl
  | true => exact Status.setFault_of_fault hf

/-- Settles O11: the codes listed are those of `causeCode`. -/
theorem raiseFaultWritesFirstCause : Obligations.RaiseFaultWritesFirstCause := by
  intro c r cause code hmem
  have hcode : code = (causeCode cause).setWidth 32 := by
    simp only [List.mem_cons, List.not_mem_nil, or_false, Prod.mk.injEq] at hmem
    rcases hmem with ⟨rfl, rfl⟩ | ⟨rfl, rfl⟩ | ⟨rfl, rfl⟩ | ⟨rfl, rfl⟩ | ⟨rfl, rfl⟩ <;> rfl
  rw [raiseFault, Status.recordFault_eq, hcode]

theorem complete_fault {c : Config} (r : Regs c) :
    (complete r).STATUS.fault = r.STATUS.fault ∧ (complete r).STATUS.cause = r.STATUS.cause := by
  rcases complete_cases r with ⟨g, r', _, _, heff, heq⟩ | ⟨_, heq⟩ <;> rw [heq]
  · obtain ⟨L, rc, idx, d, rfl⟩ := effect_frame heff
    dsimp only
    split_ifs <;> simp
  · exact ⟨rfl, rfl⟩

theorem HostChange.fault_of_fault {c : Config} {a : HostAction} {r r' : Regs c} (h : HostChange a r r')
    (hf : r.STATUS.fault = true) :
    r'.STATUS.fault = true ∧ r'.STATUS.cause = r.STATUS.cause := by
  cases h with
  | faulted cause => simp [hf]
  | accepted g => exact ⟨(Status.fault_issued _ g).trans hf, Status.cause_issued _ g⟩
  | unchanged | drawn | injected | cleared | wroteData | wroteSource | wroteParameter => exact ⟨hf, rfl⟩

/-- Settles O12: neither a host action nor a completion clears the record. -/
theorem faultRecordIsSticky : Obligations.FaultRecordIsSticky := by
  intro s t hstep hreset hf
  obtain ⟨r', rd, rfl, rfl | ⟨a, _, hchange⟩⟩ := complete_or_hostChange_of_step hstep hreset
  · obtain ⟨hfault, hcause⟩ := complete_fault s.regs
    exact ⟨hfault.trans hf, hcause⟩
  · exact hchange.fault_of_fault hf

/-! ## The cursor -/

theorem complete_SEEN {c : Config} (r : Regs c) : (complete r).SEEN = r.SEEN := by
  rcases complete_cases r with ⟨g, r', _, _, heff, heq⟩ | ⟨_, heq⟩ <;> rw [heq]
  obtain ⟨L, rc, idx, d, rfl⟩ := effect_frame heff
  rfl

theorem HostChange.seen_le {c : Config} {a : HostAction} {r r' : Regs c} (h : HostChange a r r')
    (hclr : ∀ v, a = .write 0 v → decode (BitVec.ofNat 32 v) ≠ .ok .bclr) :
    r.SEEN.toNat ≤ r'.SEEN.toNat := by
  cases h with
  | injected _ _ hforward => exact hforward
  | cleared v ha hdec => exact absurd hdec (hclr v ha)
  | unchanged | drawn | faulted | accepted | wroteData | wroteSource | wroteParameter => exact le_rfl

/-- Settles O28: an injection moves the cursor forward, and `BCLR` is shut out. -/
theorem cursorFallsOnlyByClearOrReset : Obligations.CursorFallsOnlyByClearOrReset := by
  intro s t hstep hreset hclr
  obtain ⟨r', rd, rfl, rfl | ⟨a, hhead, hchange⟩⟩ := complete_or_hostChange_of_step hstep hreset
  · exact (congrArg BitVec.toNat (complete_SEEN s.regs)).ge
  · obtain ⟨rest, hin⟩ := List.head?_eq_some_iff.mp hhead
    refine hchange.seen_le fun v ha => ?_
    subst ha
    exact hclr v rest hin

/-! ## The operands of a pending command -/

/-- What the effect of a pending command reads, and that it is pending, stay as they are. -/
def SameOperands {c : Config} (r r' : Regs c) : Prop :=
  r'.N = r.N ∧ r'.T = r.T ∧ r'.RF = r.RF ∧ r'.RP = r.RP ∧ r'.P = r.P ∧ r'.LFSR = r.LFSR ∧
  r'.IDX = r.IDX ∧ r'.RC = r.RC ∧ r'.GOP = r.GOP ∧ r'.STATUS.gbusy = true

theorem HostChange.sameOperands_of_busy {c : Config} {a : HostAction} {r r' : Regs c}
    (h : HostChange a r r') (hbusy : r.STATUS.gbusy = true) : SameOperands r r' := by
  have hidle : ¬ r.STATUS.gbusy = false := by simp [hbusy]
  cases h with
  | faulted cause =>
    exact ⟨rfl, rfl, rfl, rfl, rfl, rfl, rfl, rfl, rfl, (Status.gbusy_recordFault _ cause).trans hbusy⟩
  | accepted _ h => exact absurd h hidle
  | wroteParameter h => exact absurd h hidle
  | unchanged | drawn | injected | cleared | wroteData | wroteSource =>
    exact ⟨rfl, rfl, rfl, rfl, rfl, rfl, rfl, rfl, rfl, hbusy⟩

/-- Settles O29: while busy no command is accepted and no parameter is written. -/
theorem pendingOperandsAreStable : Obligations.PendingOperandsAreStable := by
  intro s a rest hbusy hin
  obtain ⟨r', rd, hstep, hchange⟩ := stepChange_step s
  rw [hin, List.tail_cons] at hstep
  rw [hin, List.head?_cons] at hchange
  refine ⟨r', rd, hstep, ?_⟩
  cases hchange with
  | turn _ he => simp at he
  | host _ _ h => exact h.sameOperands_of_busy hbusy

/-! ## `LFSR = 0` -/

theorem seeded_ne_zero {c : Config} (r : Regs c) : seeded r ≠ 0 := by
  rw [seeded, advanceRawTimes_eq_iterate]
  exact iterate_advanceRaw_ne_zero 160 (lfsrSeed_ne_zero c r.N r.T r.RF r.RP)

theorem tableLoop_ne_zero {w count idx n p : Nat} {S S' : LfsrWord} {rc rc' : Memory w} (hS : S ≠ 0)
    (h : tableLoop count idx S n p rc = some (S', rc')) : S' ≠ 0 := by
  induction count generalizing idx S rc with
  | zero =>
    obtain ⟨rfl, _⟩ := Prod.ext_iff.mp (Option.some.inj h)
    exact hS
  | succ count ih =>
    simp only [tableLoop] at h
    split at h
    · cases h
    · rename_i S'' k hnext
      exact ih (nextConstant_ne_zero hS hnext) h

@[simp] theorem stepIdx_LFSR {c : Config} (r : Regs c) : (stepIdx r).LFSR = r.LFSR := by
  rcases stepIdx_cases r with ⟨_, heq⟩ | ⟨_, heq⟩ <;> rw [heq]

theorem EffectOf.LFSR_ne_zero {c : Config} {g : GenOp} {r r' : Regs c} (heff : EffectOf r g r')
    (hL : r.LFSR ≠ 0) : r'.LFSR ≠ 0 := by
  cases heff with
  | linit => exact seeded_ne_zero r
  | advr => exact advanceRaw_ne_zero hL
  | advf S hS => exact ne_zero_of_advanceFiltered hS
  | genc S k hnext =>
    rw [stepIdx_LFSR]
    exact nextConstant_ne_zero hL hnext
  | gent S rc hloop => exact tableLoop_ne_zero (seeded_ne_zero r) hloop

theorem complete_LFSR_ne_zero {c : Config} {r : Regs c} (hL : r.LFSR ≠ 0) : (complete r).LFSR ≠ 0 := by
  rcases complete_cases r with ⟨g, r', _, _, heff, heq⟩ | ⟨_, heq⟩ <;> rw [heq]
  · have hL' := (effectOf_of_effect heff).LFSR_ne_zero hL
    exact hL'
  · exact hL

theorem HostChange.LFSR_eq {c : Config} {a : HostAction} {r r' : Regs c} (h : HostChange a r r') :
    r'.LFSR = r.LFSR := by cases h <;> rfl

/-- Settles O42: no effect leaves 0 from a register that is not 0, and no host action writes `LFSR`. -/
theorem lfsrBecomesZeroOnlyByReset : Obligations.LfsrBecomesZeroOnlyByReset := by
  intro s t hstep hreset hL
  obtain ⟨r', rd, rfl, rfl | ⟨a, _, hchange⟩⟩ := complete_or_hostChange_of_step hstep hreset
  · exact complete_LFSR_ne_zero hL
  · exact fun h0 => hL (hchange.LFSR_eq.symm.trans h0)

/-! ## Turns of the generator, and the end of a run -/

theorem step_of_turn {s : State} {rest : List Event} (hin : s.inputs = .generatorTurn :: rest) :
    step s = .next (generatorTurn { s with inputs := rest }) := by
  simp [step, advance, hin, takeEvent]

theorem step_of_no_input {s : State} (hin : s.inputs = []) : step s = .next (generatorTurn s) := by
  simp [step, advance, hin]

theorem complete_of_idle {c : Config} {r : Regs c} (hidle : r.STATUS.gbusy = false) : complete r = r := by
  rcases complete_cases r with ⟨_, _, hbusy, _⟩ | ⟨_, heq⟩
  · simp [hidle] at hbusy
  · exact heq

theorem complete_idle_of_effect {c : Config} {r : Regs c} {g : GenOp} (hbusy : r.STATUS.gbusy = true)
    (hgop : r.GOP = some g) (heff : (effect g r).isSome = true) :
    (complete r).STATUS.gbusy = false ∧ (complete r).GOP = none := by
  obtain ⟨r', heff⟩ := Option.isSome_iff_exists.mp heff
  rw [complete_of_effect hbusy hgop heff]
  exact ⟨Status.gbusy_setGbusy _ _, rfl⟩

/-- Settles O43: a turn is the completion step, and an idle one changes nothing. -/
theorem generatorTurnCompletes : Obligations.GeneratorTurnCompletes := by
  refine ⟨fun s rest hin => step_of_turn hin, fun s hin => step_of_no_input hin,
    fun s g r' hin hbusy hgop heff => ?_, fun s hin hidle => ?_⟩
  · exact ⟨_, step_of_no_input hin, complete_idle_of_effect hbusy hgop (Option.isSome_of_eq_some heff)⟩
  · rw [step_of_no_input hin, generatorTurn, complete_of_idle hidle, setRegs_self]

theorem gbusy_reset (c : Config) (d e : Nat) : (Regs.reset c d e).STATUS.gbusy = false := by
  simp [Status.gbusy]

theorem State.runOver_iff (s : State) :
    s.runOver = true ↔ (∀ a, Event.host a ∉ s.inputs) ∧ s.regs.STATUS.gbusy = false := by
  rw [State.runOver, Bool.and_eq_true, State.programDone_iff, Bool.not_eq_true']

/-- With no host action left a step is the reset event, where that comes next, or a turn. -/
theorem step_of_no_host_action {s : State} (hhost : ∀ a, Event.host a ∉ s.inputs) :
    step s = .next { s with
      inputs := s.inputs.tail
      regs := if s.inputs.head? = some .reset then Regs.reset s.cfg s.regs.draws (s.regs.epoch + 1)
        else complete s.regs } := by
  rcases hin : s.inputs with _ | ⟨e, rest⟩
  · rw [step_of_no_input hin, List.tail_nil, ← hin]
    simp [hin, generatorTurn, State.setRegs]
  · cases e with
    | host a => exact absurd (hin ▸ List.mem_cons_self) (hhost a)
    | generatorTurn => exact step_of_turn hin
    | reset => exact step_of_reset hin

/-- Settles O48: a turn completes the pending command where its effect is defined, and else changes
nothing. -/
theorem runIsOverOrCompletesOrHangs : Obligations.RunIsOverOrCompletesOrHangs := by
  have htail : ∀ s : State, (∀ a, Event.host a ∉ s.inputs) → ∀ a, Event.host a ∉ s.inputs.tail :=
    fun s hhost a ha => hhost a (List.mem_of_mem_tail ha)
  refine ⟨State.runOver_iff, fun s t hover hstep => ?_, fun s g hhost hbusy hgop => ?_⟩
  · obtain ⟨hhost, hidle⟩ := s.runOver_iff.mp hover
    rw [step_of_no_host_action hhost] at hstep
    obtain rfl := Host.Outcome.next.inj hstep
    refine (State.runOver_iff _).mpr ⟨htail s hhost, ?_⟩
    dsimp only
    split_ifs
    · exact gbusy_reset ..
    · rwa [complete_of_idle hidle]
  · rw [step_of_no_host_action hhost]
    by_cases hends : (effect g s.regs).isSome = true ∨ s.inputs.head? = some .reset
    · rw [if_pos hends]
      refine ⟨_, rfl, (State.runOver_iff _).mpr ⟨htail s hhost, ?_⟩⟩
      dsimp only
      split_ifs with hreset
      · exact gbusy_reset ..
      · exact (complete_idle_of_effect hbusy hgop (hends.resolve_right hreset)).1
    · rw [if_neg hends]
      obtain ⟨hundefined, hreset⟩ := not_or.mp hends
      rw [Bool.not_eq_true, Option.isSome_eq_false_iff, Option.isNone_iff_eq_none] at hundefined
      rw [if_neg hreset, complete_of_undefined hgop hundefined]
      refine ⟨rfl, ?_⟩
      rw [State.runOver, hbusy, Bool.not_true, Bool.and_false]

end Sys2Proof.Machine
end

section
/-! Proofs about the generator's commands (42_lfsr_generator.md R104 to R111): the frame of a completion
(O27), what each command leaves (O34 to O38), the table of `GENT` (O39, O40), and the hang (O41). -/

namespace Sys2Proof.Machine

/-! ## The frame of a completion -/

theorem EffectOf.read_eq {c : Config} {g : GenOp} {r r' : Regs c} (heff : EffectOf r g r') {i : Nat}
    (hgenc : ¬ (g = .genc ∧ i = r.IDX.toNat)) (hgent : ¬ (g = .gent ∧ i < tableSize r)) :
    Memory.read r'.RC i = Memory.read r.RC i := by
  cases heff with
  | linit | advr | advf => rfl
  | genc S k =>
    rw [stepIdx_RC, Memory.read_write, if_neg fun h => hgenc ⟨rfl, h⟩]
  | gent S rc hloop =>
    have hbeyond : 0 + tableSize r ≤ i := by
      rw [Nat.zero_add]
      exact Nat.le_of_not_lt fun h => hgent ⟨rfl, h⟩
    exact (tableLoop_read hloop).1 i (.inr hbeyond)

/-- Settles O27: the effect's frame, and `GBUSY` and `RCV` are bits 0 and 1. -/
theorem generatorTurnWritesOnlyGeneratorState : Obligations.GeneratorTurnWritesOnlyGeneratorState := by
  intro c r
  rcases complete_cases r with ⟨g, r', _, hgop, heff, heq⟩ | ⟨_, heq⟩ <;> rw [heq]
  · have hread := @EffectOf.read_eq c g r r' (effectOf_of_effect heff)
    obtain ⟨L, rc, idx, d, rfl⟩ := effect_frame heff
    refine ⟨L, rc, idx, _, none, d, rfl, fun j hj => ?_, fun i hi => ?_⟩
    · rw [Status.setGbusy, getLsbD_setBit, if_neg (by omega)]
      dsimp only
      split_ifs
      · rw [Status.setRcv, getLsbD_setBit, if_neg (by omega)]
      · rfl
    · rw [hgop, Option.some.injEq, Option.some.injEq]
      by_contra hnone
      obtain ⟨hgenc, hgent⟩ := not_or.mp hnone
      exact hi (hread hgenc hgent)
  · exact ⟨r.LFSR, r.RC, r.IDX, r.STATUS, r.GOP, r.draws, rfl, fun _ _ => rfl, fun _ h => absurd rfl h⟩

/-! ## `STATUS` from issue to completion -/

theorem Status.completed_keeping {st : Status} (hidle : st.gbusy = false) :
    Status.setGbusy (st ||| 0x1#32) false = st := by
  change (st.setGbusy true).setGbusy false = st
  refine BitVec.eq_of_getLsbD_eq fun j _ => ?_
  simp only [Status.setGbusy, getLsbD_setBit]
  split_ifs with h0
  · rw [h0.1]
    exact hidle.symm
  · rfl

/-- `RCV` is written as `b` between issue and completion. -/
theorem Status.setGbusy_false_setRcv_setGbusy_true (st : Status) (b : Bool) :
    (((st.setGbusy true).setRcv b).setGbusy false) = (st.setRcv b).setGbusy false := by
  refine BitVec.eq_of_getLsbD_eq fun j _ => ?_
  simp only [Status.setGbusy, Status.setRcv, getLsbD_setBit]
  split_ifs <;> rfl

theorem Status.setGbusy_false_setRcv_false (st : Status) :
    (st.setRcv false).setGbusy false = st &&& ~~~0x3#32 := by
  rw [Status.setRcv_false_eq, Status.setGbusy_false_eq, BitVec.and_assoc,
    (by decide : ~~~0x2#32 &&& ~~~0x1#32 = ~~~0x3#32)]

theorem Status.completed_clearing (st : Status) :
    Status.setGbusy ((st ||| 0x1#32) &&& ~~~0x2#32) false = st &&& ~~~0x3#32 :=
  (Status.setGbusy_false_setRcv_setGbusy_true st false).trans (Status.setGbusy_false_setRcv_false st)

theorem Status.gbusy_or_one (st : Status) : Status.gbusy (st ||| 0x1#32) = true :=
  Status.gbusy_setGbusy st true

theorem Status.gbusy_or_one_and (st : Status) :
    Status.gbusy ((st ||| 0x1#32) &&& ~~~0x2#32) = true :=
  Status.gbusy_issued st .linit

/-! ## `LINIT` -/

/-- A field of `w` bits above the lower fields, which fit below it, adds to their number. -/
theorem field_or_ofNat {w d x : Nat} (v : BitVec w) (hw : w + d ≤ 80) (hx : x < 2 ^ d) :
    v.setWidth 80 <<< d ||| BitVec.ofNat 80 x = BitVec.ofNat 80 (v.toNat * 2 ^ d + x) := by
  have hv : v.toNat * 2 ^ d + x < 2 ^ 80 :=
    calc v.toNat * 2 ^ d + x < v.toNat * 2 ^ d + 2 ^ d := Nat.add_lt_add_left hx _
      _ = (v.toNat + 1) * 2 ^ d := (Nat.succ_mul ..).symm
      _ ≤ 2 ^ w * 2 ^ d := Nat.mul_le_mul_right _ v.isLt
      _ = 2 ^ (w + d) := (Nat.pow_add ..).symm
      _ ≤ 2 ^ 80 := Nat.pow_le_pow_right (by omega) hw
  have hwide : v.toNat < 2 ^ 80 := v.isLt.trans_le (Nat.pow_le_pow_right (by omega) (by omega))
  refine BitVec.eq_of_toNat_eq ?_
  rw [BitVec.toNat_or, BitVec.toNat_shiftLeft, BitVec.toNat_setWidth, Nat.mod_eq_of_lt hwide,
    Nat.shiftLeft_eq, BitVec.toNat_ofNat, BitVec.toNat_ofNat, Nat.mod_eq_of_lt hv,
    Nat.mod_eq_of_lt (by omega), Nat.mod_eq_of_lt (by omega), Nat.mul_comm,
    Nat.two_pow_add_eq_or_of_lt hx]

/-- The seed as the integer sum of its fields (R100): each field starts where the one below it ends. -/
theorem lfsrSeed_eq_ofNat (c : Config) (n t : BitVec 12) (rf rp : BitVec 10) :
    lfsrSeed c n t rf rp = BitVec.ofNat 80 (c.fieldType.toNat * 2 ^ 78 + c.sboxType.toNat * 2 ^ 74 +
      n.toNat * 2 ^ 62 + t.toNat * 2 ^ 50 + rf.toNat * 2 ^ 40 + rp.toNat * 2 ^ 30 + (2 ^ 30 - 1)) := by
  have hpad : (BitVec.allOnes 30).setWidth 80 = BitVec.ofNat 80 (2 ^ 30 - 1) := by decide
  have hsbox := c.sboxType.isLt
  have hn := n.isLt
  have ht := t.isLt
  have hrf := rf.isLt
  have hrp := rp.isLt
  simp only [lfsrSeed, BitVec.or_assoc]
  rw [hpad, field_or_ofNat rp (by omega) (by omega), field_or_ofNat rf (by omega) (by omega),
    field_or_ofNat t (by omega) (by omega), field_or_ofNat n (by omega) (by omega),
    field_or_ofNat c.sboxType (by omega) (by omega), field_or_ofNat c.fieldType (by omega) (by omega)]
  simp only [Nat.add_assoc]

/-- Settles O34: the effect of `LINIT` reads the parameters only, which the issue leaves. -/
theorem linitSeedsAndIdles : Obligations.LinitSeedsAndIdles := by
  intro s hidle
  dsimp only
  rw [← lfsrSeed_eq_ofNat, ← advanceRawTimes_eq_iterate]
  refine ⟨?_, ?_, seeded_ne_zero s.regs⟩
  · rw [exec_linit, issue_of_accepted hidle rfl]
    rfl
  · rw [complete_of_effect (Status.gbusy_or_one_and _) rfl rfl]
    dsimp only
    rw [Status.completed_clearing]
    rfl

/-! ## `ADVR` and `ADVF` -/

theorem toNat_advanceRaw (S : LfsrWord) :
    (advanceRaw S).toNat = (S.toNat * 2 + (feedbackBit S).toNat) % 2 ^ 80 := by
  rw [← BitVec.toNat_ofNat]
  refine congrArg BitVec.toNat (BitVec.eq_of_getLsbD_eq fun i hi => ?_)
  rw [getLsbD_advanceRaw S i hi, BitVec.getLsbD_ofNat, decide_eq_true hi, Bool.true_and, Nat.mul_comm,
    ← Nat.pow_one 2, Nat.testBit_two_pow_mul_add _ (Bool.toNat_lt _)]
  rcases i with _ | i
  · cases feedbackBit S <;> rfl
  · rw [if_neg (by omega), if_neg (by omega)]
    rfl

/-- Settles O35: `ADVR` is accepted whatever the parameters, and touches neither `RCV` nor `IDX`. -/
theorem advrAdvancesOnce : Obligations.AdvrAdvancesOnce := by
  intro s hidle
  have hcomplete : complete { s.regs with STATUS := s.regs.STATUS ||| 0x1#32, GOP := some .advr } =
      { s.regs with LFSR := advanceRaw s.regs.LFSR, GOP := none } := by
    rw [complete_of_effect (Status.gbusy_or_one _) rfl rfl]
    dsimp only
    rw [Status.completed_keeping hidle]
  refine ⟨?_, hcomplete, ?_⟩
  · rw [exec_advr, issue_of_accepted hidle rfl]
    rfl
  · rw [hcomplete]
    exact toNat_advanceRaw s.regs.LFSR

/-- Settles O36: for `LFSR` not 0 the filtered advance is defined. -/
theorem advfAdvancesPastTheFirstSetBit : Obligations.AdvfAdvancesPastTheFirstSetBit := by
  intro s hidle
  constructor
  · rw [exec_advf, issue_of_accepted hidle rfl]
    rfl
  · intro hL
    obtain ⟨m, h1, h80, hbefore, htop, hadv⟩ := advanceFiltered_of_ne_zero hL
    refine ⟨m, h1, h80, hbefore, htop, ?_⟩
    have heff : effect .advf { s.regs with STATUS := s.regs.STATUS ||| 0x1#32, GOP := some .advf } =
        some { s.regs with
          LFSR := advanceRaw^[m + 1] s.regs.LFSR, STATUS := s.regs.STATUS ||| 0x1#32,
          GOP := some .advf } := by
      rw [effect, advfEffect_eq_map, hadv]
      rfl
    rw [complete_of_effect (Status.gbusy_or_one _) rfl heff]
    dsimp only
    rw [Status.completed_keeping hidle]

/-! ## `GENC` -/

/-- Stepping `IDX` writes `IDX` and the draw counter only, by the sum where it fits 23 bits. -/
theorem stepIdx_eq {c : Config} (r : Regs c) : ∃ idx d, stepIdx r = { r with IDX := idx, draws := d } ∧
    (r.IDX.toNat + 1 < 2 ^ 23 → idx.toNat = r.IDX.toNat + 1 ∧ d = r.draws) := by
  rcases stepIdx_cases r with ⟨_, heq⟩ | ⟨hlast, heq⟩
  · exact ⟨_, _, heq, fun hfits => ⟨Nat.mod_eq_of_lt hfits, rfl⟩⟩
  · exact ⟨_, _, heq, fun hfits => by omega⟩

/-- Settles O37: the effect of `GENC` reads nothing the issue writes. -/
theorem gencStoresTheNextConstant : Obligations.GencStoresTheNextConstant := by
  intro s hidle hN hNmax hP hIDX
  refine ⟨?_, fun hnone => ?_, fun S k hnext => ?_⟩
  · have husable : paramsUsable .genc s.regs = true :=
      (paramsUsable_genc_iff _).mpr ⟨(one_le_toNat_iff _).mp hN, hNmax, hP, hIDX⟩
    rw [exec_genc, issue_of_accepted hidle husable]
    rfl
  · refine complete_of_undefined rfl ?_
    rw [effect, gencEffect_eq_map]
    dsimp only
    rw [hnone, Option.map_none]
  · obtain ⟨idx, d, hstep, hidx⟩ := stepIdx_eq (c := s.cfg) { s.regs with
      LFSR := S, RC := Memory.write s.regs.RC s.regs.IDX.toNat (BitVec.ofNat s.cfg.nmax k),
      STATUS := (s.regs.STATUS ||| 0x1#32) &&& ~~~0x2#32, GOP := some .genc }
    refine ⟨_, idx, d, ?_, fun i => Memory.read_write .., hidx⟩
    rw [complete_of_effect (g := .genc) (Status.gbusy_or_one_and _) rfl
      (by rw [effect, gencEffect_eq_map]; dsimp only; rw [hnext, Option.map_some])]
    dsimp only
    rw [hstep]
    dsimp only
    rw [Status.completed_clearing]

/-! ## `GENT` -/

/-- `count` times `GENC` is the table loop, as long as `IDX` stays within its 23 bits. -/
theorem iterate_gencEffect {c : Config} (count : Nat) (r : Regs c) (h : r.IDX.toNat + count < 2 ^ 23) :
    (fun o : Option (Regs c) => o.bind gencEffect)^[count] (some r) =
      (tableLoop count r.IDX.toNat r.LFSR r.N.toNat r.P.toNat r.RC).map fun x =>
        { r with LFSR := x.1, RC := x.2, IDX := BitVec.ofNat 23 (r.IDX.toNat + count) } := by
  induction count generalizing r with
  | zero =>
    simp [tableLoop]
  | succ count ih =>
    rw [Function.iterate_succ_apply, Option.bind_some, gencEffect_eq_map, tableLoop]
    cases hnext : nextConstant r.LFSR r.N.toNat r.P.toNat with
    | none =>
      exact Function.iterate_fixed rfl count
    | some x =>
      obtain ⟨S, k⟩ := x
      have hidx : (r.IDX + 1).toNat = r.IDX.toNat + 1 := by
        rw [BitVec.toNat_add]
        exact Nat.mod_eq_of_lt (show r.IDX.toNat + 1 < 2 ^ 23 by omega)
      have hstep : stepIdx { r with
            LFSR := S, RC := Memory.write r.RC r.IDX.toNat (BitVec.ofNat c.nmax k) } =
          { r with LFSR := S, RC := Memory.write r.RC r.IDX.toNat (BitVec.ofNat c.nmax k),
                   IDX := r.IDX + 1 } := if_pos (by dsimp only; omega)
      rw [Option.map_some, hstep, ih _ (by dsimp only; omega)]
      dsimp only
      rw [hidx, Nat.add_assoc, Nat.add_comm 1 count]

/-- The fields of `RF`, `RP` and `T` hold no table of `2^23` entries (10_state.md R24). -/
theorem tableSize_lt {c : Config} (r : Regs c) : tableSize r < 2 ^ 23 := by
  have hrf := r.RF.isLt
  have hrp := r.RP.isLt
  have ht := r.T.isLt
  calc tableSize r ≤ 2046 * 4095 := Nat.mul_le_mul (by omega) (by omega)
    _ < 2 ^ 23 := by decide

/-- `LINIT` and then `GENC` for each entry of the table. -/
theorem iterate_gencEffect_linitEffect {c : Config} (r : Regs c) :
    (fun o : Option (Regs c) => o.bind gencEffect)^[tableSize r] (linitEffect r) =
      (tableLoop (tableSize r) 0 (seeded r) r.N.toNat r.P.toNat r.RC).map fun x =>
        { r with LFSR := x.1, RC := x.2, IDX := BitVec.ofNat 23 (tableSize r) } := by
  have hsize := tableSize_lt r
  rw [linitEffect, iterate_gencEffect _ _ (by simpa using hsize)]
  simp

/-- The table is full: `RCV` was cleared at issue and is set at completion. -/
theorem Status.completed_gent (st : Status) :
    Status.setGbusy (Status.setRcv ((st ||| 0x1#32) &&& ~~~0x2#32) true) false =
      (st ||| 0x2#32) &&& ~~~0x1#32 := by
  change ((((st.setGbusy true).setRcv false).setRcv true).setGbusy false) =
    (st.setRcv true).setGbusy false
  refine BitVec.eq_of_getLsbD_eq fun j _ => ?_
  simp only [Status.setGbusy, Status.setRcv, getLsbD_setBit]
  split_ifs <;> rfl

/-- Settles O38: both sides run the table loop on what the issue leaves as it was. -/
theorem gentIsLinitThenGencs : Obligations.GentIsLinitThenGencs := by
  intro s hidle hN hNmax hP htable
  constructor
  · have husable : paramsUsable .gent s.regs = true :=
      (paramsUsable_gent_iff _).mpr ⟨(one_le_toNat_iff _).mp hN, hNmax, hP, htable⟩
    rw [exec_gent, issue_of_accepted hidle husable]
    rfl
  · have hcomposed := iterate_gencEffect_linitEffect s.regs
    unfold tableSize at hcomposed
    rw [hcomposed]
    have heff := gentEffect_eq_map { s.regs with
      STATUS := (s.regs.STATUS ||| 0x1#32) &&& ~~~0x2#32, GOP := some .gent }
    change _ = (tableLoop (tableSize s.regs) 0 (seeded s.regs) _ _ _).map _ at heff
    unfold tableSize at heff
    cases hloop : tableLoop ((s.regs.RF.toNat + s.regs.RP.toNat) * s.regs.T.toNat) 0 (seeded s.regs)
        s.regs.N.toNat s.regs.P.toNat s.regs.RC with
    | none =>
      rw [hloop] at heff
      exact complete_of_undefined rfl heff
    | some x =>
      rw [hloop] at heff
      rw [complete_of_effect (g := .gent) (Status.gbusy_or_one_and _) rfl heff]
      dsimp only [Option.map_some, Option.elim_some]
      rw [Status.completed_gent]

/-! ## The table -/

theorem complete_gent_of_none {c : Config} {r : Regs c} (hgop : r.GOP = some .gent)
    (hloop : tableLoop (tableSize r) 0 (seeded r) r.N.toNat r.P.toNat r.RC = none) :
    complete r = r :=
  complete_of_undefined hgop ((gentEffect_eq_map r).trans (by rw [hloop, Option.map_none]))

theorem complete_gent_of_some {c : Config} {r : Regs c} (hbusy : r.STATUS.gbusy = true)
    (hgop : r.GOP = some .gent) {S : LfsrWord} {rc : Memory c.nmax}
    (hloop : tableLoop (tableSize r) 0 (seeded r) r.N.toNat r.P.toNat r.RC = some (S, rc)) :
    complete r = { r with
      LFSR := S, RC := rc, IDX := BitVec.ofNat 23 (tableSize r), GOP := none,
      STATUS := (r.STATUS.setRcv true).setGbusy false } :=
  complete_of_effect hbusy hgop ((gentEffect_eq_map r).trans (by rw [hloop, Option.map_some]))

/-- A `GENT` that completed ran the table loop to its end. -/
theorem exists_table_of_completed {c : Config} {r : Regs c} (hbusy : r.STATUS.gbusy = true)
    (hgop : r.GOP = some .gent) (hdone : (complete r).STATUS.gbusy = false) :
    ∃ S rc, tableLoop (tableSize r) 0 (seeded r) r.N.toNat r.P.toNat r.RC = some (S, rc) := by
  cases hloop : tableLoop (tableSize r) 0 (seeded r) r.N.toNat r.P.toNat r.RC with
  | none =>
    rw [complete_gent_of_none hgop hloop, hbusy] at hdone
    cases hdone
  | some x => exact ⟨x.1, x.2, rfl⟩

/-- Settles O39: the table loop writes exactly the entries of the table, with constants. -/
theorem completedTableIsBelowTheModulus : Obligations.CompletedTableIsBelowTheModulus := by
  intro c r hbusy hgop hdone
  obtain ⟨S, rc, hloop⟩ := exists_table_of_completed hbusy hgop hdone
  obtain ⟨hbeyond, htable⟩ := tableLoop_read hloop
  rw [complete_gent_of_some hbusy hgop hloop]
  constructor
  · intro i hi
    obtain ⟨k, hread, hkp, hkn⟩ := htable i (Nat.zero_le i) ((Nat.zero_add _).symm ▸ hi)
    rw [rcEntry_of_written hread, BitVec.toNat_ofNat]
    exact ⟨(Nat.mod_le _ _).trans_lt hkp, (Nat.mod_le _ _).trans_lt hkn⟩
  · intro i hi
    have hread := hbeyond i (.inr ((Nat.zero_add _).symm ▸ hi))
    simp only [Regs.rcEntry, hread]

/-- What `RC` held before decides neither the register nor the entries the table loop leaves. -/
theorem tableLoop_of_other_memory {w count idx n p : Nat} {S S' : LfsrWord} {rc rc' : Memory w}
    (h : tableLoop count idx S n p rc = some (S', rc')) (other : Memory w) :
    ∃ other', tableLoop count idx S n p other = some (S', other') ∧
      ∀ j, idx ≤ j → j < idx + count → Memory.read rc' j = Memory.read other' j := by
  induction count generalizing idx S rc other with
  | zero =>
    obtain ⟨rfl, _⟩ := Prod.ext_iff.mp (Option.some.inj h)
    exact ⟨other, rfl, fun j h1 h2 => by omega⟩
  | succ count ih =>
    rw [tableLoop] at h ⊢
    cases hnext : nextConstant S n p with
    | none =>
      rw [hnext] at h
      cases h
    | some x =>
      obtain ⟨S'', k⟩ := x
      rw [hnext] at h
      obtain ⟨other', hother, hsame⟩ := ih h (Memory.write other idx (BitVec.ofNat w k))
      refine ⟨other', hother, fun j h1 h2 => ?_⟩
      rcases eq_or_ne j idx with rfl | hne
      · rw [(tableLoop_read h).1 j (by omega), (tableLoop_read hother).1 j (by omega),
          Memory.read_write, Memory.read_write, if_pos rfl, if_pos rfl]
      · exact hsame j (by omega) (by omega)

/-- Settles O40: the table loop starts from the seed of the parameters. -/
theorem tableDependsOnParametersOnly : Obligations.TableDependsOnParametersOnly := by
  intro c r₁ r₂ hbusy₁ hbusy₂ hgop₁ hgop₂ hN hT hRF hRP hP
  have hsize : tableSize r₂ = tableSize r₁ := by simp only [tableSize, hT, hRF, hRP]
  have hseed : seeded r₂ = seeded r₁ := by simp only [seeded, hN, hT, hRF, hRP]
  cases hloop₁ : tableLoop (tableSize r₁) 0 (seeded r₁) r₁.N.toNat r₁.P.toNat r₁.RC with
  | none =>
    have hloop₂ : tableLoop (tableSize r₂) 0 (seeded r₂) r₂.N.toNat r₂.P.toNat r₂.RC = none := by
      rw [hsize, hseed, ← hN, ← hP, Option.eq_none_iff_forall_ne_some]
      intro x hloop₂
      obtain ⟨_, hsome, _⟩ := tableLoop_of_other_memory hloop₂ r₁.RC
      cases hloop₁.symm.trans hsome
    rw [complete_gent_of_none hgop₁ hloop₁, complete_gent_of_none hgop₂ hloop₂, hbusy₁, hbusy₂]
    exact ⟨rfl, fun h => by cases h⟩
  | some x =>
    obtain ⟨rc₂, hloop₂, hsame⟩ := tableLoop_of_other_memory hloop₁ r₂.RC
    rw [hN, hP, ← hsize, ← hseed] at hloop₂
    rw [complete_gent_of_some hbusy₁ hgop₁ hloop₁, complete_gent_of_some hbusy₂ hgop₂ hloop₂]
    refine ⟨?_, fun _ => ⟨rfl, by rw [hsize], fun i hi => ?_⟩⟩
    · rw [Status.gbusy_setGbusy, Status.gbusy_setGbusy]
    · have hi' : i < 0 + tableSize r₁ := (Nat.zero_add _).symm ▸ hi
      obtain ⟨k, hread, _⟩ := (tableLoop_read hloop₁).2 i (Nat.zero_le i) hi'
      rw [rcEntry_of_written hread, rcEntry_of_written ((hsame i (Nat.zero_le i) hi').symm.trans hread)]

/-! ## The hang -/

/-- Settles O41: from `LFSR = 0` neither a filtered advance nor a candidate of one bit is defined. -/
theorem zeroLfsrHangsFilteredCommands : Obligations.ZeroLfsrHangsFilteredCommands := by
  intro s hin hbusy hL hcmd
  have hcomplete : complete s.regs = s.regs := by
    rcases hcmd with hgop | ⟨hgop, hN⟩
    · refine complete_of_undefined hgop ?_
      rw [effect, advfEffect_eq_map, hL, advanceFiltered_zero, Option.map_none]
    · refine complete_of_undefined hgop ?_
      rw [effect, gencEffect_eq_map, hL, nextConstant_zero _ hN, Option.map_none]
  rw [step_of_no_input hin, generatorTurn, hcomplete, setRegs_self]

end Sys2Proof.Machine
end

section
/-! Proofs about register accesses the host is allowed: reads (O44, O45) and writes (O47)
(20_memory.md R40 to R42, R52). -/

namespace Sys2Proof.Machine

theorem regName_source {c : Config} {i : Nat} (hi : i < c.blockWords) :
    regName c (BitVec.ofNat 32 (0x20000 + i)) = some (.src i) := by
  have hle := blockWords_le c
  have hnum : (BitVec.ofNat 32 (0x20000 + i)).toNat = 0x20000 + i := Nat.mod_eq_of_lt (by omega)
  have hne : ∀ a ≤ 0xA, 0x20000 + i ≠ a := fun a ha => by omega
  have hb : ¬ 0x20000 + i < 0x10000 + c.blockWords := by omega
  simp [regName, hnum, hne, hb, hi]

/-! ## Reads -/

/-- A read of a register that holds a value, in a state in which that value is specified. -/
theorem hostRead_of_specified {s : State} {rn : RegNum} {x : RegName} (hx : regName s.cfg rn = some x)
    (hcmd : x ≠ .cmd) (hspec : s.regs.STATUS.gbusy = false ∨ unspecifiedWhileBusy x = false) :
    hostRead rn s = { s with rdata := readValue s.regs x } := by
  have hnot : (s.regs.STATUS.gbusy && unspecifiedWhileBusy x) = false := Bool.and_eq_false_iff.mpr hspec
  simp [hostRead, hx, hnot]

theorem hostRead_of_unspecified {s : State} {rn : RegNum} {x : RegName} (hx : regName s.cfg rn = some x)
    (hbusy : s.regs.STATUS.gbusy = true) (hunspec : unspecifiedWhileBusy x = true) :
    hostRead rn s = unspecifiedRead (regWidth s.cfg x) s := by
  have hcmd : x ≠ .cmd := by rintro rfl; cases hunspec
  simp [hostRead, hx, hbusy, hunspec]

/-- Settles O44: each number is looked up in the map; `LFSR`, `IDX` and `RC` are specified while idle. -/
theorem hostReadReturnsTheRegister : Obligations.HostReadReturnsTheRegister := by
  intro s rn rest hin reads
  have hread : ∀ x : RegName, regName s.cfg rn = some x → x ≠ .cmd →
      (s.regs.STATUS.gbusy = false ∨ unspecifiedWhileBusy x = false) → reads (readValue s.regs x) := by
    intro x hx hcmd hspec
    change step s = _
    rw [step_of_read hin, hostRead_of_specified (s := { s with inputs := rest }) hx hcmd hspec]
  refine ⟨?_, ?_, ?_, ?_, ?_, ?_, ?_, ?_, ?_, ?_, fun hidle => ⟨?_, ?_, ?_⟩⟩
  · rintro rfl; exact hread .status rfl (by decide) (.inr rfl)
  · rintro rfl; exact hread .seen rfl (by decide) (.inr rfl)
  · rintro rfl; exact hread .wdata rfl (by decide) (.inr rfl)
  · rintro rfl; exact hread .n rfl (by decide) (.inr rfl)
  · rintro rfl; exact hread .t rfl (by decide) (.inr rfl)
  · rintro rfl; exact hread .rf rfl (by decide) (.inr rfl)
  · rintro rfl; exact hread .rp rfl (by decide) (.inr rfl)
  · rintro rfl; exact hread .p rfl (by decide) (.inr rfl)
  · rintro i hi rfl; exact hread (.b i) (regName_blockWord hi) nofun (.inr rfl)
  · rintro i hi rfl; exact hread (.src i) (regName_source hi) nofun (.inr rfl)
  · rintro rfl; exact hread .lfsr rfl (by decide) (.inl hidle)
  · rintro rfl; exact hread .idx rfl (by decide) (.inl hidle)
  · rintro i hi rfl; exact hread (.rc i) (regName_rcEntry hi) nofun (.inl hidle)

/-- Settles O45: the value drawn has the register's width, so it is below `2` to that power. -/
theorem busyReadIsSomeValueOfTheWidth : Obligations.BusyReadIsSomeValueOfTheWidth := by
  intro s rn rest hin hbusy reads
  have hread : ∀ x : RegName, regName s.cfg rn = some x → unspecifiedWhileBusy x = true →
      reads (regWidth s.cfg x) := by
    intro x hx hunspec
    refine ⟨(Config.freeBits (regWidth s.cfg x) s.regs.draws).toNat, BitVec.isLt _, ?_⟩
    rw [step_of_read hin, hostRead_of_unspecified (s := { s with inputs := rest }) hx hbusy hunspec]
    rfl
  refine ⟨?_, ?_, ?_⟩
  · rintro rfl; exact hread .lfsr rfl rfl
  · rintro rfl; exact hread .idx rfl rfl
  · rintro i hi rfl; exact hread (.rc i) (regName_rcEntry hi) rfl

/-! ## Writes -/

theorem hostWrite_of_regName {s : State} {rn : RegNum} {x : RegName} (hx : regName s.cfg rn = some x)
    (hcmd : x ≠ .cmd) (v : Nat) :
    hostWrite rn v s = .next (s.setRegs (writeRegister v s.regs x)) := by
  simp [hostWrite, hx]

theorem paramWrite_of_idle {c : Config} {r : Regs c} (hidle : r.STATUS.gbusy = false) (written : Regs c) :
    paramWrite r written = written := by simp [paramWrite, hidle]

/-- Settles O47: each number is looked up in the map; a parameter is written while idle. -/
theorem hostWriteStoresTheTruncatedValue : Obligations.HostWriteStoresTheTruncatedValue := by
  intro s rn v rest hin writes
  have hwrite : ∀ x : RegName, regName s.cfg rn = some x → x ≠ .cmd →
      writes (writeRegister v s.regs x) := by
    intro x hx hcmd
    change step s = _
    rw [step_of_write hin, hostWrite_of_regName (s := { s with inputs := rest }) hx hcmd]
    rfl
  have hparam : ∀ (x : RegName) (r : Regs s.cfg), s.regs.STATUS.gbusy = false →
      writeRegister v s.regs x = paramWrite s.regs r → regName s.cfg rn = some x → x ≠ .cmd →
        writes r := by
    intro x r hidle hreg hx hcmd
    rw [← paramWrite_of_idle hidle r, ← hreg]
    exact hwrite x hx hcmd
  refine ⟨fun hidle => ⟨?_, ?_, ?_, ?_, ?_⟩, ?_, ?_⟩
  · rintro rfl; exact hparam .n _ hidle rfl rfl (by decide)
  · rintro rfl; exact hparam .t _ hidle rfl rfl (by decide)
  · rintro rfl; exact hparam .rf _ hidle rfl rfl (by decide)
  · rintro rfl; exact hparam .rp _ hidle rfl rfl (by decide)
  · rintro rfl; exact hparam .p _ hidle rfl rfl (by decide)
  · rintro rfl; exact hwrite .wdata rfl (by decide)
  · rintro i hi rfl
    exact ⟨_, hwrite (.src i) (regName_source hi) nofun, fun j => Memory.read_write ..⟩

end Sys2Proof.Machine
end

section
/-! Proofs about the bit map of the stream conventions (20_memory.md R47): where a unit and a bit of it
lie (O16), the masks of R82 and R83 (O17), and where the conventions coincide (O21). -/

namespace Sys2Proof.Machine

/-! ## The bit map -/

/-- `phys` is its own inverse (`phys_phys`). -/
theorem phys_bijOn {W U : Nat} (hU : 1 ≤ U) (hd : U ∣ W) (cv : Conv) :
    Set.BijOn (phys W U cv) (Set.Iio W) (Set.Iio W) := by
  have hmaps : Set.MapsTo (phys W U cv) (Set.Iio W) (Set.Iio W) := fun _ hq => phys_lt hU hd cv hq
  exact Set.InvOn.bijOn ⟨fun _ hq => phys_phys hU hd cv hq, fun _ hq => phys_phys hU hd cv hq⟩ hmaps hmaps

/-- The unit and the bit of `phys W U cv q` put together from those of `q`: both counted from the top
or from the bottom as the convention says. -/
theorem phys_eq_unit_add_bit {W U : Nat} (hU : 1 ≤ U) (hd : U ∣ W) (cv : Conv) {q : Nat} (hq : q < W) :
    phys W U cv q =
      (if cv = .bb ∨ cv = .lb then U - 1 - q % U else q % U) +
        U * (if cv = .bb ∨ cv = .bl then W / U - 1 - q / U else q / U) := by
  obtain ⟨m, rfl⟩ := hd
  have hunit : q / U < m := Nat.div_lt_of_lt_mul hq
  have hbit : q % U < U := Nat.mod_lt q hU
  have hqeq := Nat.div_add_mod q U
  have hle : U * (q / U + 1) ≤ U * m := Nat.mul_le_mul_left U hunit
  have hfromTop : U * (m - 1 - q / U) = U * m - U * (q / U + 1) := by
    rw [Nat.sub_sub, Nat.mul_sub, Nat.add_comm 1]
  rw [Nat.mul_div_cancel_left m hU]
  rw [Nat.mul_succ] at hle hfromTop
  cases cv with
  | bb =>
    simp only [phys, true_or, if_true, hfromTop]
    omega
  | lb =>
    simp only [phys, or_true, if_true, reduceCtorEq, or_self, if_false, Nat.mul_comm (q / U)]
    omega
  | bl =>
    simp only [phys, or_true, if_true, reduceCtorEq, or_self, if_false, hfromTop, Nat.succ_mul,
      Nat.mul_comm (q / U)]
    omega
  | ll =>
    simp only [phys, reduceCtorEq, or_self, if_false]
    omega

/-- Settles O16: `phys_eq_unit_add_bit` names quotient and remainder. -/
theorem physFollowsUnitAndBitOrder : Obligations.PhysFollowsUnitAndBitOrder := by
  intro c cv
  obtain ⟨_, hU, _, hd, _⟩ := c.wf
  refine ⟨phys_bijOn hU hd cv, fun q hq => ?_⟩
  have hbit := Nat.mod_lt q hU
  refine (Nat.div_mod_unique hU).mpr ⟨(phys_eq_unit_add_bit hU hd cv hq).symm, ?_⟩
  split_ifs <;> omega

/-! ## The masks of R82 and R83 -/

/-- A register bit is among the first `k` stream bits when its own stream offset is below `k`. -/
theorem exists_phys_eq_iff {W U k b : Nat} (hU : 1 ≤ U) (hd : U ∣ W) (cv : Conv) (hk : k ≤ W)
    (hb : b < W) : (∃ j < k, phys W U cv j = b) ↔ phys W U cv b < k := by
  constructor
  · rintro ⟨j, hj, rfl⟩
    rwa [phys_phys hU hd cv (by omega)]
  · exact fun h => ⟨_, h, phys_phys hU hd cv hb⟩

/-- Bit `b` of `n` ones shifted up by `d`. -/
theorem testBit_ones_shiftLeft (n d b : Nat) :
    ((2 ^ n - 1) <<< d).testBit b = decide (d ≤ b ∧ b < d + n) := by
  rw [Nat.testBit_shiftLeft, Nat.testBit_two_pow_sub_one, ← Bool.decide_and, decide_eq_decide]
  omega

/-- The mask of R82: the whole units below `ku`, and in the next unit the top `kr` bits. -/
theorem lbMask_iff {W U k b : Nat} (hU : 1 ≤ U) (hk : k ≤ W) (hb : b < W) :
    (lowBits W (k - k % U) ||| BitVec.ofNat W
        (((2 ^ (k % U) - 1) * 2 ^ (U - k % U)) <<< (k - k % U))).getLsbD b = true ↔
      phys W U .lb b < k := by
  have hkr := Nat.mod_lt k hU
  have hbr := Nat.mod_lt b hU
  have hkeq := Nat.div_add_mod k U
  have hbeq := Nat.div_add_mod b U
  rw [BitVec.getLsbD_or, getLsbD_lowBits (by omega), BitVec.getLsbD_ofNat, decide_eq_true hb,
    Bool.true_and, ← Nat.shiftLeft_eq, ← Nat.shiftLeft_add, testBit_ones_shiftLeft, Bool.or_eq_true,
    decide_eq_true_eq, decide_eq_true_eq, phys, Nat.mul_comm (b / U)]
  rcases Nat.lt_trichotomy (b / U) (k / U) with hlt | heq | hgt
  · have hunit := Nat.mul_le_mul_left U hlt
    rw [Nat.mul_succ] at hunit
    omega
  · rw [heq] at hbeq ⊢
    omega
  · have hunit := Nat.mul_le_mul_left U hgt
    rw [Nat.mul_succ] at hunit
    omega

/-- The mask of R83: the top whole units, and in the next unit down the low `kr` bits. -/
theorem blMask_iff {W U k b : Nat} (hU : 1 ≤ U) (hd : U ∣ W) (hk : k ≤ W) (hb : b < W) :
    (if k % U = 0 then highBits W (k - k % U)
      else highBits W (k - k % U) |||
        BitVec.ofNat W ((2 ^ (k % U) - 1) <<< (W - (k - k % U) - U))).getLsbD b = true ↔
      phys W U .bl b < k := by
  have hkr := Nat.mod_lt k hU
  have hbr := Nat.mod_lt b hU
  have hkeq := Nat.div_add_mod k U
  have hbeq := Nat.div_add_mod b U
  have hend := unit_end_le hd hb
  obtain ⟨m, rfl⟩ := hd
  have hbits : (if k % U = 0 then highBits (U * m) (k - k % U)
      else highBits (U * m) (k - k % U) |||
        BitVec.ofNat (U * m) ((2 ^ (k % U) - 1) <<< (U * m - (k - k % U) - U))).getLsbD b = true ↔
      U * m - U * (k / U) ≤ b ∨ (k % U ≠ 0 ∧ U * m - U * (k / U) - U ≤ b ∧
        b < U * m - U * (k / U) - U + k % U) := by
    rw [show k - k % U = U * (k / U) by omega]
    split_ifs with h0
    · rw [getLsbD_highBits (by omega), decide_eq_true_eq]
      omega
    · rw [BitVec.getLsbD_or, getLsbD_highBits (by omega), BitVec.getLsbD_ofNat, decide_eq_true hb,
        Bool.true_and, testBit_ones_shiftLeft, Bool.or_eq_true, decide_eq_true_eq, decide_eq_true_eq]
      omega
  have hphys : phys (U * m) U .bl b = U * m - U * (b / U + 1) + b % U := by
    rw [phys, Nat.mul_comm U (b / U + 1)]
  rw [hbits, hphys]
  rw [Nat.mul_comm] at hend
  have hunits : b / U < m := Nat.div_lt_of_lt_mul hb
  rcases Nat.lt_trichotomy (b / U + 1 + k / U) m with hlt | heq | hgt
  · have hunit := Nat.mul_le_mul_left U hlt
    simp only [Nat.mul_add, Nat.mul_succ] at hunit hend ⊢
    omega
  · have hunit := congrArg (U * ·) heq
    simp only [Nat.mul_add, Nat.mul_one] at hunit hend ⊢
    omega
  · have hunit := Nat.mul_le_mul_left U hgt
    simp only [Nat.mul_add, Nat.mul_succ] at hunit hend ⊢
    omega

/-- Settles O17: each mask selects the register bits whose stream offset is below `k`. -/
theorem unitOrderedMasksSelectFirstStreamBits : Obligations.UnitOrderedMasksSelectFirstStreamBits := by
  intro c k b hk hb
  obtain ⟨_, hU, _, hd, _⟩ := c.wf
  dsimp only
  rw [exists_phys_eq_iff hU hd .lb hk hb, exists_phys_eq_iff hU hd .bl hk hb]
  exact ⟨lbMask_iff hU hk hb, blMask_iff hU hd hk hb⟩

/-! ## Where the conventions coincide -/

/-- `σ` keeps every multiple of `u` in its place: it permutes stream offsets inside groups of `u`. -/
structure KeepsGroups (u : Nat) (σ : Nat → Nat) : Prop where
  lt_iff : ∀ d q, u ∣ d → (σ q < d ↔ q < d)
  add : ∀ d q, u ∣ d → σ (q + d) = σ q + d

theorem keepsGroups_id : KeepsGroups 1 id := ⟨fun _ _ _ => Iff.rfl, fun _ _ _ => rfl⟩

/-- Little-unit / big-bit order reverses the bits of each unit. -/
theorem keepsGroups_lb (W : Nat) {U : Nat} (hU : 1 ≤ U) : KeepsGroups U (phys W U .lb) where
  lt_iff d q hd := by
    obtain ⟨m, rfl⟩ := hd
    have hbit := Nat.mod_lt q hU
    have hfirst : phys W U .lb q / U = q / U := by
      rw [phys, Nat.mul_comm, Nat.mul_add_div hU, Nat.div_eq_of_lt (by omega : U - 1 - q % U < U),
        Nat.add_zero]
    rw [Nat.mul_comm, ← Nat.div_lt_iff_lt_mul hU, ← Nat.div_lt_iff_lt_mul hU, hfirst]
  add d q hd := by
    obtain ⟨m, rfl⟩ := hd
    rw [phys, phys, Nat.add_mul_div_left _ _ hU, Nat.add_mul_mod_self_left, Nat.add_mul,
      Nat.mul_comm m]
    omega

/-- Two conventions that differ by a permutation inside groups inject alike where the cursor's offset,
the count and the word are whole groups. -/
theorem injectWord_of_keepsGroups {c : Config} {cv cv' : Conv} {u : Nat} {σ : Nat → Nat}
    (hσ : KeepsGroups u σ)
    (hphys : ∀ q < c.wordBits, phys c.wordBits c.unitBits cv q = phys c.wordBits c.unitBits cv' (σ q))
    (hword : u ∣ c.wordBits) (w : BitVec c.wordBits) {k : Nat} (hk : k ≤ c.wordBits) (huk : u ∣ k)
    (r : Regs c) (hseen : u ∣ r.SEEN.toNat) : injectWord cv w k r = injectWord cv' w k r := by
  have hsbit : ∀ v, ∀ q < c.wordBits, sbit c cv v q = sbit c cv' v (σ q) := fun v q hq => by
    rw [sbit, sbit, hphys q hq]
  have huo : u ∣ r.SEEN.toNat % c.wordBits := (Nat.dvd_mod_iff hword).mpr hseen
  have ho : r.SEEN.toNat % c.wordBits < c.wordBits := Nat.mod_lt _ c.wf.1
  unfold injectWord
  dsimp only
  generalize r.SEEN.toNat % c.wordBits = o at huo ho ⊢
  have huok : u ∣ o + k := Nat.dvd_add huo huk
  have hhere : ∀ old, placeHere c cv (keepStream c cv old o) w o k =
      placeHere c cv' (keepStream c cv' old o) w o k := by
    intro old
    refine eq_of_sbit_eq cv fun q hq => ?_
    have hq' := (hσ.lt_iff _ q hword).mpr hq
    rw [sbit_placeHere_keepStream cv old w k ho.le hq, hsbit (placeHere ..) q hq,
      sbit_placeHere_keepStream cv' old w k ho.le hq']
    simp only [hσ.lt_iff o q huo, hσ.lt_iff _ q huok]
    split_ifs with hold hnew
    · exact hsbit old q hq
    · have hmoved := hσ.add o (q - o) huo
      rw [Nat.sub_add_cancel (by omega)] at hmoved
      rw [hsbit w _ (by omega), hmoved, Nat.add_sub_cancel]
    · rfl
  have hnext : placeNext c cv w o k = placeNext c cv' w o k := by
    refine eq_of_sbit_eq cv fun q hq => ?_
    have hq' := (hσ.lt_iff _ q hword).mpr hq
    rw [sbit_placeNext cv w (by omega) ho.le hq, hsbit (placeNext ..) q hq,
      sbit_placeNext cv' w (by omega) ho.le hq']
    have hmoved := hσ.add (c.wordBits - o) q (Nat.dvd_sub hword huo)
    have hspill := hσ.lt_iff (o + k) (q + c.wordBits) huok
    rw [hσ.add _ q hword] at hspill
    by_cases hnew : q + c.wordBits < o + k
    · rw [decide_eq_true hnew, decide_eq_true (hspill.mpr hnew), Bool.true_and, Bool.true_and,
        Nat.add_sub_assoc ho.le, Nat.add_sub_assoc ho.le, hsbit w _ (by omega), hmoved]
    · rw [decide_eq_false hnew, decide_eq_false (fun h => hnew (hspill.mp h)), Bool.false_and,
        Bool.false_and]
  simp only [hhere, hnext]

theorem exec_injw_of_keepsGroups {cv cv' : Conv} {u : Nat} {σ : Nat → Nat} (hσ : KeepsGroups u σ)
    {s : State} {k : Nat}
    (hphys : ∀ q < s.cfg.wordBits,
      phys s.cfg.wordBits s.cfg.unitBits cv q = phys s.cfg.wordBits s.cfg.unitBits cv' (σ q))
    (hword : u ∣ s.cfg.wordBits) (huk : u ∣ k) (hseen : u ∣ s.regs.SEEN.toNat) :
    exec (.injw cv k) s = exec (.injw cv' k) s := by
  rw [exec_injw, exec_injw]
  by_cases hk : k ≤ s.cfg.wordBits
  · rw [injwCommand_of_le cv _ hk, injwCommand_of_le cv' _ hk,
      injectWord_of_keepsGroups hσ hphys hword _ hk huk _ hseen]
  · rw [injwCommand_of_gt cv _ (by omega), injwCommand_of_gt cv' _ (by omega)]

/-- Where two conventions have one bit map, groups of one bit serve. -/
theorem exec_injw_of_phys_eq {cv cv' : Conv} (k : Nat) {s : State}
    (hphys : ∀ q < s.cfg.wordBits,
      phys s.cfg.wordBits s.cfg.unitBits cv q = phys s.cfg.wordBits s.cfg.unitBits cv' q) :
    exec (.injw cv k) s = exec (.injw cv' k) s :=
  exec_injw_of_keepsGroups keepsGroups_id hphys (one_dvd _) (one_dvd _) (one_dvd _)

theorem phys_of_one_unit {W q : Nat} (hq : q < W) :
    phys W W .lb q = phys W W .bb q ∧ phys W W .bl q = phys W W .ll q := by
  simp only [phys, Nat.div_eq_of_lt hq, Nat.mod_eq_of_lt hq]
  omega

theorem phys_of_one_bit (W q : Nat) :
    phys W 1 .lb q = phys W 1 .ll q ∧ phys W 1 .bl q = phys W 1 .bb q := by
  simp only [phys, Nat.div_one, Nat.mod_one]
  omega

/-- Big-unit / little-bit order differs from big-unit / big-bit order by the reversal of each unit. -/
theorem phys_bl_eq_bb {W U q : Nat} (hU : 1 ≤ U) (hd : U ∣ W) (hq : q < W) :
    phys W U .bl q = phys W U .bb (phys W U .lb q) := by
  have hend := unit_end_le hd hq
  have hbit := Nat.mod_lt q hU
  simp only [phys, Nat.add_mul, Nat.one_mul] at hend ⊢
  omega

/-- Settles O21: one bit map in the first two cases, the reversal of each unit in the third. -/
theorem conventionsCoincide : Obligations.ConventionsCoincide := by
  intro k s
  obtain ⟨_, hU, _, hd, _⟩ := s.cfg.wf
  refine ⟨fun hunit => ?_, fun hunit => ?_, fun hseen hk => ?_⟩
  · exact ⟨exec_injw_of_phys_eq (cv := .lb) (cv' := .bb) k fun q hq => hunit ▸ (phys_of_one_unit hq).1,
      exec_injw_of_phys_eq (cv := .bl) (cv' := .ll) k fun q hq => hunit ▸ (phys_of_one_unit hq).2⟩
  · exact ⟨exec_injw_of_phys_eq (cv := .lb) (cv' := .ll) k fun q _ => hunit ▸ (phys_of_one_bit _ q).1,
      exec_injw_of_phys_eq (cv := .bl) (cv' := .bb) k fun q _ => hunit ▸ (phys_of_one_bit _ q).2⟩
  · have hgroups := keepsGroups_lb s.cfg.wordBits hU
    have hk' := Nat.dvd_of_mod_eq_zero hk
    have hseen' := Nat.dvd_of_mod_eq_zero hseen
    exact ⟨exec_injw_of_keepsGroups (cv := .lb) (cv' := .ll) hgroups (fun _ _ => rfl) hd hk' hseen',
      exec_injw_of_keepsGroups (cv := .bl) (cv' := .bb) hgroups (fun q hq => phys_bl_eq_bb hU hd hq)
        hd hk' hseen'⟩

end Sys2Proof.Machine
end

section
/-! Proofs about the block injector (41_block_injector.md R90, R95): its stream bits (O24), its form as
word injections (O25), the frame of the injector (O26), and the round trip through the host interface
(40_word_injector.md R85 (e); O22). -/

namespace Sys2Proof.Machine

/-! ## The frame of the injector -/

/-- Settles O26: an injection changes the block and the cursor, a `K_RANGE` fault `STATUS`. -/
theorem injectorWritesOnlyBlockAndCursor : Obligations.InjectorWritesOnlyBlockAndCursor := by
  rintro i s (⟨cv, k, rfl⟩ | ⟨cv, k, rfl⟩ | rfl)
  · rw [exec_injw]
    rcases injwCommand_cases cv k s.regs with ⟨hk, heq⟩ | ⟨_, heq⟩ <;> rw [heq]
    · exact ⟨s.regs.B, s.regs.SEEN, _, rfl, fun _ => ⟨rfl, rfl, rfl, cv, k, hk, rfl⟩⟩
    · obtain ⟨B', n, hword⟩ := injectWord_frame cv s.regs.WDATA k s.regs
      rw [hword]
      exact ⟨B', n, s.regs.STATUS, rfl, fun h => absurd rfl h⟩
  · obtain ⟨B', n, hblock⟩ := injectBlock_frame cv k s.regs
    rw [exec_injb, hblock]
    exact ⟨B', n, s.regs.STATUS, rfl, fun h => absurd rfl h⟩
  · exact ⟨_, _, s.regs.STATUS, exec_bclr s, fun h => absurd rfl h⟩

/-! ## A block injection as a sequence of word injections -/

/-- The registers with `x` in `WDATA`. -/
def Regs.withData {c : Config} (r : Regs c) (x : BitVec c.wordBits) : Regs c := { r with WDATA := x }

@[simp] theorem withData_withData {c : Config} (r : Regs c) (x y : BitVec c.wordBits) :
    (r.withData x).withData y = r.withData y := rfl

theorem withData_of_eq {c : Config} {r : Regs c} {x : BitVec c.wordBits} (h : r.WDATA = x) :
    r.withData x = r := by
  subst h
  rfl

@[simp] theorem injectWord_WDATA {c : Config} (cv : Conv) (w : BitVec c.wordBits) (k : Nat)
    (r : Regs c) : (injectWord cv w k r).WDATA = r.WDATA := by
  obtain ⟨_, _, h⟩ := injectWord_frame cv w k r
  rw [h]

@[simp] theorem injectWholeWords_WDATA {c : Config} (cv : Conv) (n : Nat) (r : Regs c) :
    (injectWholeWords cv n r).WDATA = r.WDATA := by
  obtain ⟨_, _, h⟩ := injectWholeWords_frame cv n r
  rw [h]

/-- An injection reads the operand given to it, not `WDATA`. -/
theorem injectWord_withData {c : Config} (cv : Conv) (w x : BitVec c.wordBits) (k : Nat) (r : Regs c) :
    injectWord cv w k (r.withData x) = (injectWord cv w k r).withData x := by
  unfold injectWord Regs.withData
  dsimp only
  split_ifs <;> rfl

theorem injwCommand_withData {c : Config} (cv : Conv) (x : BitVec c.wordBits) {k : Nat}
    (hk : k ≤ c.wordBits) (r : Regs c) :
    injwCommand cv k (r.withData x) = (injectWord cv x k r).withData x :=
  (injwCommand_of_le cv _ hk).trans (injectWord_withData cv x x k r)

/-- The whole words of R95: each word of `SRC` put into `WDATA` and injected. -/
theorem foldl_injwCommand {c : Config} (cv : Conv) (n : Nat) (r : Regs c) :
    ∃ x, (List.range n).foldl (fun q j => injwCommand cv c.wordBits (q.withData (r.srcWord j))) r =
      (injectWholeWords cv n r).withData x := by
  induction n with
  | zero => exact ⟨r.WDATA, rfl⟩
  | succ n ih =>
    obtain ⟨x, hx⟩ := ih
    refine ⟨r.srcWord n, ?_⟩
    rw [List.range_succ, List.foldl_append, List.foldl_cons, List.foldl_nil, hx,
      withData_withData, injwCommand_withData cv _ le_rfl, injectWholeWords_succ,
      srcWord_injectWholeWords]

theorem injectBlock_of_fits {c : Config} (cv : Conv) {n m : Nat} (r : Regs c) (hm : m < c.wordBits)
    (hfit : r.SEEN.toNat + n * c.wordBits + m ≤ c.blockBits) :
    injectBlock cv (n * c.wordBits + m) r =
      if m ≠ 0 then injectWord cv (r.srcWord n) m (injectWholeWords cv n r)
      else injectWholeWords cv n r := by
  have hdiv : (n * c.wordBits + m) / c.wordBits = n := by
    rw [Nat.mul_comm, Nat.mul_add_div c.wf.1, Nat.div_eq_of_lt hm, Nat.add_zero]
  have hmod : (n * c.wordBits + m) % c.wordBits = m := by
    rw [Nat.mul_comm, Nat.mul_add_mod, Nat.mod_eq_of_lt hm]
  rw [injectBlock, if_neg (by omega)]
  dsimp only
  rw [hdiv, hmod, srcWord_injectWholeWords]

/-- The word injections of R95 with `WDATA` put back are a block injection. -/
theorem injectBlock_eq_injwCommands {c : Config} (cv : Conv) {n m : Nat} (r : Regs c)
    (hm : m < c.wordBits) (hfit : r.SEEN.toNat + n * c.wordBits + m ≤ c.blockBits) :
    injectBlock cv (n * c.wordBits + m) r =
      Regs.withData (
        if m ≠ 0 then
          injwCommand cv m (((List.range n).foldl
            (fun q j => injwCommand cv c.wordBits (q.withData (r.srcWord j))) r).withData (r.srcWord n))
        else
          (List.range n).foldl (fun q j => injwCommand cv c.wordBits (q.withData (r.srcWord j))) r)
        r.WDATA := by
  obtain ⟨x, hwhole⟩ := foldl_injwCommand cv n r
  rw [injectBlock_of_fits cv r hm hfit, hwhole]
  split_ifs with h0
  · rw [withData_withData, injwCommand_withData cv _ hm.le, withData_withData,
      withData_of_eq (by rw [injectWord_WDATA, injectWholeWords_WDATA])]
  · rw [withData_withData, withData_of_eq (injectWholeWords_WDATA cv n r)]

/-- Settles O25: both sides inject the same words; `WDATA` is put back. -/
theorem injbIsASequenceOfInjw : Obligations.InjbIsASequenceOfInjw := by
  intro cv n m s hm hfit
  dsimp only
  rw [exec_injb, injectBlock_eq_injwCommands cv s.regs hm hfit]
  rfl

/-! ## The stream bits an injection commits -/

/-- From `r` to `r'` the `k` bits `bit 0, bit 1, …` were committed after the cursor: the committed bits
stay, the rest of the last word written is 0, and nothing else changes (R90). -/
def Commits {c : Config} (cv : Conv) (k : Nat) (bit : Nat → Bool) (r r' : Regs c) : Prop :=
  ∃ B', r' = { r with B := B', SEEN := BitVec.ofNat 16 (r.SEEN.toNat + k) } ∧
    ∀ p < c.blockBits, streamBit c cv B' p =
      if p < r.SEEN.toNat then streamBit c cv r.B p
      else if p < r.SEEN.toNat + k then bit (p - r.SEEN.toNat)
      else if k ≠ 0 ∧ p / c.wordBits ≤ (r.SEEN.toNat + k - 1) / c.wordBits then false
      else streamBit c cv r.B p

theorem Commits.congr {c : Config} {cv : Conv} {k : Nat} {bit bit' : Nat → Bool} {r r' : Regs c}
    (h : Commits cv k bit r r') (hbit : ∀ j < k, bit j = bit' j) : Commits cv k bit' r r' := by
  obtain ⟨B', heq, hread⟩ := h
  refine ⟨B', heq, fun p hp => ?_⟩
  rw [hread p hp]
  by_cases hnew : p < r.SEEN.toNat + k
  · by_cases hold : p < r.SEEN.toNat
    · rw [if_pos hold, if_pos hold]
    · rw [if_neg hold, if_neg hold, if_pos hnew, if_pos hnew, hbit _ (by omega)]
  · rw [if_neg hnew, if_neg hnew]

/-- The cursor is a number of 16 bits, which hold every offset in the block (00_scope.md R4). -/
theorem toNat_cursor {c : Config} {n : Nat} (hn : n ≤ c.blockBits) : (BitVec.ofNat 16 n).toNat = n := by
  obtain ⟨_, _, _, _, _, hblock, _⟩ := c.wf
  rw [BitVec.toNat_ofNat, Nat.mod_eq_of_lt (by omega)]

theorem commits_zero {c : Config} (cv : Conv) (bit : Nat → Bool) (r : Regs c) :
    Commits cv 0 bit r r := by
  refine ⟨r.B, by rw [Nat.add_zero, BitVec.ofNat_toNat, BitVec.setWidth_eq], fun p _ => ?_⟩
  split_ifs with hold hnew hlast
  · rfl
  · omega
  · exact absurd rfl hlast.1
  · rfl

/-- The word of the last bit committed is the cursor's word, or the next one on a spill. -/
theorem last_word_iff {W n k p : Nat} (hW : 0 < W) (h0 : k ≠ 0) (hk : k ≤ W) (hp : n + k ≤ p) :
    p / W = n / W ∨ (p / W = n / W + 1 ∧ W < n % W + k) ↔ p / W ≤ (n + k - 1) / W := by
  have hn := Nat.div_add_mod n W
  have ho := Nat.mod_lt n hW
  have hle : n / W ≤ p / W := Nat.div_le_div_right (by omega)
  by_cases hspill : W < n % W + k
  · have hlast : (n + k - 1) / W = n / W + 1 := by
      rw [show n + k - 1 = W * (n / W + 1) + (n % W + k - 1 - W) by rw [Nat.mul_succ]; omega,
        Nat.mul_add_div hW,
        Nat.div_eq_of_lt (by omega : n % W + k - 1 - W < W), Nat.add_zero]
    omega
  · have hlast : (n + k - 1) / W = n / W := by
      rw [show n + k - 1 = W * (n / W) + (n % W + k - 1) by omega, Nat.mul_add_div hW,
        Nat.div_eq_of_lt (by omega : n % W + k - 1 < W), Nat.add_zero]
    omega

theorem commits_injectWord {c : Config} (cv : Conv) (w : BitVec c.wordBits) {k : Nat} (r : Regs c)
    (h0 : k ≠ 0) (hk : k ≤ c.wordBits) (hfit : r.SEEN.toNat + k ≤ c.blockBits) :
    Commits cv k (sbit c cv w) r (injectWord cv w k r) := by
  obtain ⟨B', heq, hread⟩ := streamBit_injectWord_of_fits cv w k r hk hfit (by omega)
  refine ⟨B', heq, fun p hp => ?_⟩
  rw [hread p hp]
  by_cases hnew : p < r.SEEN.toNat + k
  · rw [if_pos hnew, if_pos hnew]
  · rw [if_neg hnew, if_neg hnew]
    refine if_congr Iff.rfl rfl (if_congr ?_ rfl rfl)
    rw [last_word_iff c.wf.1 h0 hk (by omega)]
    exact (and_iff_right h0).symm

/-- Commits one after the other are one commit of all the bits. -/
theorem Commits.trans {c : Config} {cv : Conv} {k₁ k₂ : Nat} {bit₁ bit₂ : Nat → Bool} {r r' r'' : Regs c}
    (h₁ : Commits cv k₁ bit₁ r r') (h₂ : Commits cv k₂ bit₂ r' r'')
    (hfit : r.SEEN.toNat + k₁ + k₂ ≤ c.blockBits) :
    Commits cv (k₁ + k₂) (fun j => if j < k₁ then bit₁ j else bit₂ (j - k₁)) r r'' := by
  obtain ⟨B', rfl, hread₁⟩ := h₁
  obtain ⟨B'', rfl, hread₂⟩ := h₂
  have hseen : (BitVec.ofNat 16 (r.SEEN.toNat + k₁)).toNat = r.SEEN.toNat + k₁ :=
    toNat_cursor (c := c) (by omega)
  dsimp only at hread₂
  rw [hseen] at hread₂
  refine ⟨B'', ?_, fun p hp => ?_⟩
  · dsimp only
    rw [hseen, Nat.add_assoc]
  · rw [hread₂ p hp, hread₁ p hp]
    beta_reduce
    by_cases hold : p < r.SEEN.toNat
    · rw [if_pos (by omega), if_pos hold, if_pos hold]
    by_cases hfirst : p < r.SEEN.toNat + k₁
    · rw [if_pos hfirst, if_neg hold, if_pos hfirst, if_neg hold, if_pos (by omega), if_pos (by omega)]
    by_cases hsecond : p < r.SEEN.toNat + k₁ + k₂
    · rw [if_neg hfirst, if_pos hsecond, if_neg hold, if_pos (by omega), if_neg (by omega), Nat.sub_sub]
    · rw [if_neg hfirst, if_neg hsecond, if_neg hold, if_neg hfirst, if_neg hold,
        if_neg (by omega : ¬ p < r.SEEN.toNat + (k₁ + k₂)), ← Nat.add_assoc]
      have hmono : (r.SEEN.toNat + k₁ - 1) / c.wordBits ≤ (r.SEEN.toNat + k₁ + k₂ - 1) / c.wordBits :=
        Nat.div_le_div_right (by omega)
      by_cases hk₂ : k₂ = 0
      · subst hk₂
        simp
      · by_cases hlast : p / c.wordBits ≤ (r.SEEN.toNat + k₁ + k₂ - 1) / c.wordBits
        · rw [if_pos ⟨hk₂, hlast⟩, if_pos ⟨by omega, hlast⟩]
        · rw [if_neg (fun h => hlast h.2), if_neg (fun h => hlast (h.2.trans hmono)),
            if_neg (fun h => hlast h.2)]

/-- Stream bit `j` of `SRC` (20_memory.md R48). -/
def srcBit {c : Config} (cv : Conv) (r : Regs c) (j : Nat) : Bool :=
  sbit c cv (r.srcWord (j / c.wordBits)) (j % c.wordBits)

/-- Stream bits `n × WordBits ..` of `SRC` are those of its word `n`. -/
theorem srcBit_of_word {c : Config} (cv : Conv) (r : Regs c) {n j : Nat} (hlo : n * c.wordBits ≤ j)
    (hhi : j < n * c.wordBits + c.wordBits) :
    srcBit cv r j = sbit c cv (r.srcWord n) (j - n * c.wordBits) := by
  have hj : j = c.wordBits * n + (j - n * c.wordBits) := by rw [Nat.mul_comm]; omega
  have hlt : j - n * c.wordBits < c.wordBits := by omega
  have hdiv : j / c.wordBits = n := by
    rw [hj, Nat.mul_add_div c.wf.1, Nat.div_eq_of_lt hlt, Nat.add_zero]
  have hmod : j % c.wordBits = j - n * c.wordBits := by
    rw [hj, Nat.mul_add_mod, Nat.mod_eq_of_lt hlt, ← hj]
  rw [srcBit, hdiv, hmod]

/-- After the bits of `SRC`'s first `n` words, `m` bits of the next one go on with `SRC`. -/
theorem Commits.append_srcWord {c : Config} {cv : Conv} {n m : Nat} {r r' : Regs c}
    (h : Commits cv (n * c.wordBits) (srcBit cv r) r r') (h0 : m ≠ 0) (hm : m ≤ c.wordBits)
    (hfit : r.SEEN.toNat + n * c.wordBits + m ≤ c.blockBits) :
    Commits cv (n * c.wordBits + m) (srcBit cv r) r (injectWord cv (r.srcWord n) m r') := by
  have hseen : r'.SEEN.toNat = r.SEEN.toNat + n * c.wordBits := by
    obtain ⟨B', rfl, _⟩ := h
    exact toNat_cursor (c := c) (by omega)
  refine (h.trans (commits_injectWord cv (r.srcWord n) r' h0 hm (by omega)) hfit).congr fun j hj => ?_
  split_ifs with hwhole
  · rfl
  · exact (srcBit_of_word cv r (by omega) (by omega)).symm

theorem commits_injectWholeWords {c : Config} (cv : Conv) (n : Nat) (r : Regs c)
    (hfit : r.SEEN.toNat + n * c.wordBits ≤ c.blockBits) :
    Commits cv (n * c.wordBits) (srcBit cv r) r (injectWholeWords cv n r) := by
  induction n with
  | zero =>
    rw [Nat.zero_mul]
    exact commits_zero cv _ r
  | succ n ih =>
    rw [Nat.succ_mul, ← Nat.add_assoc] at hfit
    rw [injectWholeWords_succ, srcWord_injectWholeWords, Nat.succ_mul]
    have hW : c.wordBits ≠ 0 := Nat.ne_of_gt c.wf.1
    exact (ih (by omega)).append_srcWord hW le_rfl hfit

/-- A block injection that fits commits the first `k` stream bits of `SRC` (R90). -/
theorem commits_injectBlock {c : Config} (cv : Conv) {k : Nat} {r : Regs c}
    (hfit : k + r.SEEN.toNat ≤ c.blockBits) : Commits cv k (srcBit cv r) r (injectBlock cv k r) := by
  have hm := Nat.mod_lt k c.wf.1
  have hk : k / c.wordBits * c.wordBits + k % c.wordBits = k := Nat.div_add_mod' k c.wordBits
  generalize k / c.wordBits = n at hk
  generalize k % c.wordBits = m at hk hm
  subst hk
  rw [injectBlock_of_fits cv r hm (by omega)]
  have hwhole := commits_injectWholeWords cv n r (by omega)
  split_ifs with h0
  · exact hwhole.append_srcWord h0 hm.le (by omega)
  · rw [not_not] at h0
    rw [h0, Nat.add_zero]
    exact hwhole

theorem injectBlock_of_full {c : Config} (cv : Conv) {k : Nat} {r : Regs c}
    (hfull : c.blockBits < k + r.SEEN.toNat) : injectBlock cv k r = r := if_pos hfull

/-- Settles O24: `commits_injectBlock` in the words of R90. -/
theorem injbCommitsStreamBits : Obligations.InjbCommitsStreamBits := by
  intro cv k s
  rw [exec_injb]
  constructor
  · intro hfull
    rw [injectBlock_of_full cv hfull, setRegs_self]
  · intro hfit
    obtain ⟨B', heq, hread⟩ := commits_injectBlock cv hfit
    exact ⟨B', by rw [heq]; rfl, hread⟩

/-! ## The round trip -/

/-- The block holds the stream `bits` and then zeros, the cursor at the end of `bits`. -/
structure HoldsStream {c : Config} (cv : Conv) (r : Regs c) (bits : List Bool) : Prop where
  seen : r.SEEN.toNat = bits.length
  fits : bits.length ≤ c.blockBits
  read : ∀ p < c.blockBits, streamBit c cv r.B p = bits.getD p false

theorem holdsStream_of_cleared {c : Config} (cv : Conv) {r : Regs c}
    (hB : r.B = Vector.replicate c.blockWords 0) (hseen : r.SEEN = 0) : HoldsStream cv r [] where
  seen := by rw [hseen]; rfl
  fits := Nat.zero_le _
  read p _ := by rw [hB, streamBit, blockWord_replicate_zero, sbit_zero]; rfl

/-- Beyond the cursor the block is 0 already, so which bits an injection clears makes no difference. -/
theorem HoldsStream.append {c : Config} {cv : Conv} {r r' : Regs c} {bits : List Bool}
    (h : HoldsStream cv r bits) {k : Nat} {bit : Nat → Bool} {cleared : Nat → Prop}
    [DecidablePred cleared] (hfit : bits.length + k ≤ c.blockBits)
    (hseen : r'.SEEN = BitVec.ofNat 16 (r.SEEN.toNat + k))
    (hread : ∀ p < c.blockBits, streamBit c cv r'.B p =
      if p < r.SEEN.toNat then streamBit c cv r.B p
      else if p < r.SEEN.toNat + k then bit (p - r.SEEN.toNat)
      else if cleared p then false
      else streamBit c cv r.B p) :
    HoldsStream cv r' (bits ++ (List.range k).map bit) where
  seen := by
    rw [hseen, h.seen, toNat_cursor hfit, List.length_append, List.length_map, List.length_range]
  fits := by simpa using hfit
  read p hp := by
    rw [hread p hp, h.read p hp, h.seen]
    by_cases hold : p < bits.length
    · rw [if_pos hold, List.getD_append _ _ _ _ hold]
    rw [if_neg hold, List.getD_append_right _ _ _ _ (by omega), List.getD_eq_default bits _ (by omega)]
    by_cases hnew : p < bits.length + k
    · have hj : p - bits.length < k := by omega
      rw [if_pos hnew, List.getD_eq_getElem _ _ (by simpa using hj)]
      simp
    · rw [if_neg hnew, List.getD_eq_default _ _ (by simp; omega), ite_self]

theorem HoldsStream.injectWord {c : Config} {cv : Conv} {r : Regs c} {bits : List Bool}
    (h : HoldsStream cv r bits) (w : BitVec c.wordBits) {k : Nat} (hk : k ≤ c.wordBits) :
    HoldsStream cv (injectWord cv w k r) (appendIfFits c bits k (sbit c cv w)) := by
  have hseen := h.seen
  by_cases hfit : bits.length + k ≤ c.blockBits
  · rw [appendIfFits_of_fits hfit]
    by_cases hfull : r.SEEN.toNat = c.blockBits
    · obtain rfl : k = 0 := by omega
      rw [injectWord_of_full cv w 0 r (.inr hfull), List.range_zero, List.map_nil, List.append_nil]
      exact h
    · obtain ⟨B', heq, hread⟩ := streamBit_injectWord_of_fits cv w k r hk (by omega) (by omega)
      rw [heq]
      exact h.append hfit rfl hread
  · rw [appendIfFits_of_full (by omega), injectWord_of_full cv w k r (.inl (by omega))]
    exact h

theorem HoldsStream.injectBlock {c : Config} {cv : Conv} {r : Regs c} {bits : List Bool}
    (h : HoldsStream cv r bits) (k : Nat) :
    HoldsStream cv (injectBlock cv k r) (appendIfFits c bits k (srcBit cv r)) := by
  have hseen := h.seen
  by_cases hfit : bits.length + k ≤ c.blockBits
  · obtain ⟨B', heq, hread⟩ := commits_injectBlock (k := k) (r := r) cv (by omega)
    rw [appendIfFits_of_fits hfit, heq]
    exact h.append hfit rfl hread
  · rw [appendIfFits_of_full (by omega), injectBlock_of_full cv (by omega)]
    exact h

/-- Filling a block changes the block, the cursor and the operands of the injections only. -/
def FillFrame {c : Config} (r r' : Regs c) : Prop :=
  ∃ B' w' m n, r' = { r with B := B', WDATA := w', SRC := m, SEEN := n }

theorem FillFrame.trans {c : Config} {r r' r'' : Regs c} (h : FillFrame r r') (h' : FillFrame r' r'') :
    FillFrame r r'' := by
  obtain ⟨_, _, _, _, rfl⟩ := h
  obtain ⟨B', w', m, n, rfl⟩ := h'
  exact ⟨B', w', m, n, rfl⟩

theorem fillFrame_injectWord {c : Config} (cv : Conv) (w : BitVec c.wordBits) (k : Nat) (r : Regs c) :
    FillFrame r (injectWord cv w k r) := by
  obtain ⟨B', n, heq⟩ := injectWord_frame cv w k r
  exact ⟨B', r.WDATA, r.SRC, n, heq⟩

theorem fillFrame_injectBlock {c : Config} (cv : Conv) (k : Nat) (r : Regs c) :
    FillFrame r (injectBlock cv k r) := by
  obtain ⟨B', n, heq⟩ := injectBlock_frame cv k r
  exact ⟨B', r.WDATA, r.SRC, n, heq⟩

theorem srcWord_write {c : Config} (r : Regs c) (i : Nat) (v : BitVec c.wordBits) :
    Regs.srcWord { r with SRC := Memory.write r.SRC i v } =
      fun j => if j = i then v else r.srcWord j := by
  funext j
  simp only [Regs.srcWord, Memory.read_write]
  split_ifs <;> rfl

/-- What a fill action does to the registers (20_memory.md R42, 40_word_injector.md R80,
41_block_injector.md R90). -/
def FillAction.apply {c : Config} (cv : Conv) (r : Regs c) : FillAction → Regs c
  | .wdata v => { r with WDATA := BitVec.ofNat c.wordBits v }
  | .src i v => { r with SRC := Memory.write r.SRC i (BitVec.ofNat c.wordBits v) }
  | .injw k => Machine.injectWord cv r.WDATA k r
  | .injb k => Machine.injectBlock cv k r

/-- The stream bits held after a fill action. -/
def FillAction.extend {c : Config} (cv : Conv) (r : Regs c) (bits : List Bool) : FillAction → List Bool
  | .wdata _ => bits
  | .src _ _ => bits
  | .injw k => appendIfFits c bits k (sbit c cv r.WDATA)
  | .injb k => appendIfFits c bits k (srcBit cv r)

theorem step_of_fillAction {cv : Conv} {a : FillAction} {s : State} {rest : List Event}
    (hlegal : a.legal s.cfg = true) (hin : s.inputs = a.event cv :: rest) :
    step s = .next { s with inputs := rest, regs := a.apply cv s.regs } := by
  obtain ⟨_, _, _, _, hwords, hbits, _⟩ := s.cfg.wf
  have hword : s.cfg.wordBits ≤ s.cfg.blockBits := Nat.le_mul_of_pos_left _ hwords
  cases a with
  | wdata v =>
    rw [step_of_write hin,
      hostWrite_of_regName (s := { s with inputs := rest }) (x := .wdata) rfl nofun]
    rfl
  | src i v =>
    rw [step_of_write hin, hostWrite_of_regName (s := { s with inputs := rest })
      (regName_source (of_decide_eq_true hlegal)) nofun]
    rfl
  | injw k =>
    have hk : k ≤ s.cfg.wordBits := of_decide_eq_true hlegal
    have hwf : (Instr.injw cv k).WellFormed := by
      rw [Instr.WellFormed, count_injw]
      omega
    rw [step_of_write hin, hostWrite_cmd_encode hwf, exec_injw]
    exact congrArg (fun r => Host.Outcome.next (State.setRegs { s with inputs := rest } r))
      (injwCommand_of_le cv s.regs hk)
  | injb k =>
    have hwf : (Instr.injb cv k).WellFormed := by
      rw [Instr.WellFormed, count_injb]
      exact of_decide_eq_true hlegal
    rw [step_of_write hin, hostWrite_cmd_encode hwf, exec_injb]
    rfl

theorem fillFrame_apply {c : Config} (cv : Conv) (r : Regs c) (a : FillAction) :
    FillFrame r (a.apply cv r) := by
  cases a with
  | wdata v => exact ⟨_, _, _, _, rfl⟩
  | src i v => exact ⟨_, _, _, _, rfl⟩
  | injw k => exact fillFrame_injectWord ..
  | injb k => exact fillFrame_injectBlock ..

theorem HoldsStream.apply {c : Config} {cv : Conv} {r : Regs c} {bits : List Bool}
    (h : HoldsStream cv r bits) {a : FillAction} (hlegal : a.legal c = true) :
    HoldsStream cv (a.apply cv r) (a.extend cv r bits) := by
  cases a with
  | wdata v => exact ⟨h.seen, h.fits, h.read⟩
  | src i v => exact ⟨h.seen, h.fits, h.read⟩
  | injw k => exact h.injectWord r.WDATA (of_decide_eq_true hlegal)
  | injb k => exact h.injectBlock k

/-- The stream of the statement goes on from the operands and the bits the action leaves. -/
theorem streamAfter_cons {c : Config} (cv : Conv) (r : Regs c) (bits : List Bool) (a : FillAction)
    (rest : List FillAction) :
    streamAfter c cv (a :: rest) r.WDATA r.srcWord bits =
      streamAfter c cv rest (a.apply cv r).WDATA (a.apply cv r).srcWord (a.extend cv r bits) := by
  cases a with
  | wdata v => rfl
  | src i v => rw [FillAction.apply, srcWord_write]; rfl
  | injw k =>
    obtain ⟨B', n, heq⟩ := injectWord_frame cv r.WDATA k r
    rw [FillAction.apply, heq]
    rfl
  | injb k =>
    obtain ⟨B', n, heq⟩ := injectBlock_frame cv k r
    rw [FillAction.apply, heq]
    rfl

theorem run_succ_of_step (M : Host.Core) {n : Nat} {s t : M.State} (h : M.step s = .next t) :
    M.run (n + 1) s = M.run n t := by
  rw [Host.Core.run, h]

/-- Running fill actions: each one is a step, and the stream held grows by its bits. -/
theorem run_fillActions (cv : Conv) (actions : List FillAction) (s : State) (bits : List Bool)
    (hlegal : ∀ a ∈ actions, a.legal s.cfg = true)
    (hin : s.inputs = actions.map (FillAction.event cv)) (h : HoldsStream cv s.regs bits) :
    ∃ r', core.run actions.length s = .next { s with inputs := [], regs := r' } ∧
      FillFrame s.regs r' ∧
      HoldsStream cv r' (streamAfter s.cfg cv actions s.regs.WDATA s.regs.srcWord bits) := by
  induction actions generalizing s bits with
  | nil => exact ⟨s.regs, by rw [List.map_nil] at hin; rw [← hin]; rfl, ⟨_, _, _, _, rfl⟩, h⟩
  | cons a rest ih =>
    have ha := hlegal a List.mem_cons_self
    obtain ⟨r', hrun, hframe, hholds⟩ := ih
      { s with inputs := rest.map (FillAction.event cv), regs := a.apply cv s.regs } _
      (fun b hb => hlegal b (List.mem_cons_of_mem a hb)) rfl (h.apply ha)
    refine ⟨r', ?_, (fillFrame_apply cv s.regs a).trans hframe, ?_⟩
    · exact (run_succ_of_step core (step_of_fillAction ha hin)).trans hrun
    · rw [streamAfter_cons]
      exact hholds

/-- Settles O22: the invariant `HoldsStream` from a cleared block on. -/
theorem injectedStreamReadsBack : Obligations.InjectedStreamReadsBack := by
  intro cv actions s hB hseen hlegal hin
  dsimp only
  obtain ⟨r', hrun, ⟨B', w', m, n, rfl⟩, hholds⟩ :=
    run_fillActions cv actions s [] hlegal hin (holdsStream_of_cleared cv hB hseen)
  refine ⟨B', w', m, ?_, hholds.fits, hholds.read⟩
  rw [hrun, ← hholds.seen]
  simp

end Sys2Proof.Machine
end
